-- ==== Sys2Proof/Word.lean ====
section
/-! DEFINITION. The word types: a register, `pc` and `remainder` are 32 bits (spec/00_scope.md R4), a program byte is 8 bits
(R5), an immediate is 16 bits (R4). -/

namespace Sys2Proof

/-- A 32-bit pattern: the contents of a register, of `pc` and of `remainder` (spec/00_scope.md R6). -/
abbrev Word := BitVec 32

/-- One byte of the program, `b[7:0]` (spec/00_scope.md R5). -/
abbrev Byte := BitVec 8

/-- A 16-bit immediate (spec/00_scope.md R4, `IMM_WIDTH`). -/
abbrev Half := BitVec 16

end Sys2Proof
end

