-- ==== Sys2Proof/Config.lean ====
section
/-! DEFINITION. The named constants and the implementation parameters of spec/00_scope.md R4 and R9. -/

namespace Sys2Proof.Config

/-- `REG_COUNT` (spec/00_scope.md R4). -/
abbrev regCount : Nat := 32

/-- `ILLEGAL_CODE`, the byte `to_byte(ILLEGAL)` returns (spec/00_scope.md R4, spec/30_encoding.md R43). -/
abbrev illegalCode : Byte := 100#8

/-- The first opcode byte of the ILLEGAL space; codes 0 to 17 are named opcodes (spec/30_encoding.md R41, R42). -/
abbrev firstIllegal : Nat := 18

/-- The bytes NOP skips after its opcode byte (spec/40_engine.md R56, spec/45_control.md R86). -/
abbrev nopSkip : Nat := 3

/-- The most bytes one instruction spans (spec/30_encoding.md R39, R44). -/
abbrev maxLength : Nat := 4

/-- `REL_JUMP_CODES`: which of the codes 7 and 8 is JMPB and which is JMPF (spec/30_encoding.md R41). -/
inductive RelJumpCodes where
  /-- JMPB = 7, JMPF = 8; the spec's default. -/
  | doc
  /-- JMPF = 7, JMPB = 8. -/
  | swapped
  deriving DecidableEq, Repr

/-- `JMPB_MODE`: whether JMPB adds or subtracts its offset (spec/43_jump.md R76). -/
inductive JmpbMode where
  /-- The reference behaviour; the spec's default. -/
  | referenceAdd
  /-- The corrected behaviour. -/
  | correctedSubtract
  deriving DecidableEq, Repr

/-- `JMPE_FALSE_MODE`: whether JMPE with a false flag consumes its operand byte (spec/44_compare.md R84). -/
inductive JmpeFalseMode where
  /-- The reference behaviour; the spec's default. -/
  | referenceNoConsume
  /-- The corrected behaviour. -/
  | correctedConsume
  deriving DecidableEq, Repr

/-- The parameters a model takes (spec/00_scope.md R4). `ARITH_OVERFLOW` has one value, wrap, and so no field. -/
structure Params where
  /-- `REL_JUMP_CODES`. -/
  relJumpCodes : RelJumpCodes
  /-- `JMPB_MODE`. -/
  jmpbMode : JmpbMode
  /-- `JMPE_FALSE_MODE`. -/
  jmpeFalseMode : JmpeFalseMode
  /-- `HEAP_CAPACITY`, OPEN: a length in bytes. -/
  heapCapacity : Nat
  /-- `PROG_CAPACITY`, OPEN: a length in bytes. -/
  progCapacity : Nat
  deriving DecidableEq, Repr

/-- The ranges spec/00_scope.md R4 gives the two OPEN parameters. -/
abbrev Params.valid (p : Params) : Prop :=
  p.heapCapacity ≤ 2 ^ 32 - 1 ∧ 1 ≤ p.progCapacity ∧ p.progCapacity ≤ 2 ^ 32 - 4

/-- The parameters of `State.reset`. The three modes are the defaults of spec/00_scope.md R4.
DESIGN CHOICE (log entry 3), unsafe: the two OPEN capacities are the largest values R4 allows; `State.resetWith` takes any. -/
def defaultParams : Params where
  relJumpCodes := .doc
  jmpbMode := .referenceAdd
  jmpeFalseMode := .referenceNoConsume
  heapCapacity := 4294967295
  progCapacity := 4294967292

end Sys2Proof.Config
end

