-- ==== Sys2Proof/Syntax.lean ====
section
/-! DEFINITION. The instructions: the 18 opcodes and ILLEGAL (spec/30_encoding.md R41), each with the operands of its format
(R38, R39) in stream order. -/

namespace Sys2Proof

/-- The index of a general register, 0 to 31 (spec/10_state.md R14). -/
abbrev Reg := Fin Config.regCount

/-- One operand byte as the stream holds it: any value 0 to 255 (spec/30_encoding.md R38), or `none` where the byte lies at
or beyond `prog_len` and so is not there (spec/20_memory.md R31; log entry 7). -/
abbrev Operand := Option Byte

/-- A 16-bit immediate as the stream holds it, or `none` where its two bytes are not both there (spec/40_engine.md R55). -/
abbrev ImmOperand := Option Half

/-- The operations the opcode byte selects (spec/30_encoding.md R41). -/
inductive Opcode where
  | load | add | sub | mul | div | hlt | jmp | jmpb | jmpf | eq | neq | gte | lte | lt | gt | jmpe | nop | aloc | illegal
  deriving DecidableEq, Repr

/-- One instruction of the stream, one constructor per opcode (spec/30_encoding.md R39, R41). -/
inductive Instr where
  /-- LOAD, format RI (spec/41_load.md R68): the destination register byte and the immediate. -/
  | load (r : Operand) (imm : ImmOperand)
  /-- ADD, format RRR (spec/42_arith.md R70): two source bytes and the destination byte. -/
  | add (r1 r2 r3 : Operand)
  /-- SUB, format RRR (spec/42_arith.md R71): minuend, subtrahend, destination. -/
  | sub (r1 r2 r3 : Operand)
  /-- MUL, format RRR (spec/42_arith.md R72): two factors and the destination. -/
  | mul (r1 r2 r3 : Operand)
  /-- DIV, format RRR (spec/42_arith.md R73): dividend, divisor, quotient destination. -/
  | div (r1 r2 r3 : Operand)
  /-- HLT, format Z (spec/45_control.md R85). -/
  | hlt
  /-- JMP, format R (spec/43_jump.md R74): the register with the target. -/
  | jmp (r : Operand)
  /-- JMPB, format R (spec/43_jump.md R76): the register with the offset. -/
  | jmpb (r : Operand)
  /-- JMPF, format R (spec/43_jump.md R75): the register with the offset. -/
  | jmpf (r : Operand)
  /-- EQ, format RRP (spec/44_compare.md R78): two registers and the padding byte. -/
  | eq (r1 r2 p : Operand)
  /-- NEQ, format RRP (spec/44_compare.md R79). -/
  | neq (r1 r2 p : Operand)
  /-- GTE, format RRP (spec/44_compare.md R81). -/
  | gte (r1 r2 p : Operand)
  /-- LTE, format RRP (spec/44_compare.md R83). -/
  | lte (r1 r2 p : Operand)
  /-- LT, format RRP (spec/44_compare.md R82). -/
  | lt (r1 r2 p : Operand)
  /-- GT, format RRP (spec/44_compare.md R80). -/
  | gt (r1 r2 p : Operand)
  /-- JMPE, format R or Z (spec/44_compare.md R84): the register with the target, which the reference false path does not
  consume. -/
  | jmpe (r : Operand)
  /-- NOP, format N (spec/45_control.md R86): the three bytes it skips. -/
  | nop (s1 s2 s3 : Operand)
  /-- ALOC, format R (spec/46_heap.md R88): the register with the growth. -/
  | aloc (r : Operand)
  /-- ILLEGAL, format Z (spec/45_control.md R87), with its opcode byte. -/
  | illegal (b0 : Byte)
  deriving DecidableEq, Repr

/-- The operation of an instruction. -/
def Instr.opcode : Instr → Opcode
  | .load _ _ => .load
  | .add _ _ _ => .add
  | .sub _ _ _ => .sub
  | .mul _ _ _ => .mul
  | .div _ _ _ => .div
  | .hlt => .hlt
  | .jmp _ => .jmp
  | .jmpb _ => .jmpb
  | .jmpf _ => .jmpf
  | .eq _ _ _ => .eq
  | .neq _ _ _ => .neq
  | .gte _ _ _ => .gte
  | .lte _ _ _ => .lte
  | .lt _ _ _ => .lt
  | .gt _ _ _ => .gt
  | .jmpe _ => .jmpe
  | .nop _ _ _ => .nop
  | .aloc _ => .aloc
  | .illegal _ => .illegal

end Sys2Proof
end

