-- ==== Sys2Proof/WellFormed.lean ====
section
/-! DEFINITION. Which instructions a producer may put into the stream: every byte there (spec/30_encoding.md R44, R49), every
register operand 0 to 31 (spec/10_state.md R14), the ILLEGAL byte in its own range (spec/30_encoding.md R42). -/

namespace Sys2Proof

/-- A register operand whose byte is there and names a register (spec/10_state.md R14). -/
def Operand.inRange : Operand → Bool
  | some b => decide (b.toNat < Config.regCount)
  | none => false

/-- Every byte of the instruction is there (spec/30_encoding.md R39), and an ILLEGAL carries a byte of the ILLEGAL space (R42).
Register bytes may have any value 0 to 255 (R38). -/
def Instr.complete : Instr → Bool
  | .load r imm => r.isSome && imm.isSome
  | .add r1 r2 r3 | .sub r1 r2 r3 | .mul r1 r2 r3 | .div r1 r2 r3 => r1.isSome && r2.isSome && r3.isSome
  | .hlt => true
  | .jmp r | .jmpb r | .jmpf r | .jmpe r | .aloc r => r.isSome
  | .eq r1 r2 p | .neq r1 r2 p | .gte r1 r2 p | .lte r1 r2 p | .lt r1 r2 p | .gt r1 r2 p => r1.isSome && r2.isSome && p.isSome
  | .nop s1 s2 s3 => s1.isSome && s2.isSome && s3.isSome
  | .illegal b0 => decide (Config.firstIllegal ≤ b0.toNat)

/-- Every register operand names a register; padding and skipped bytes may hold anything (spec/30_encoding.md R45). -/
def Instr.regsInRange : Instr → Bool
  | .load r _ => r.inRange
  | .add r1 r2 r3 | .sub r1 r2 r3 | .mul r1 r2 r3 | .div r1 r2 r3 => r1.inRange && r2.inRange && r3.inRange
  | .jmp r | .jmpb r | .jmpf r | .jmpe r | .aloc r => r.inRange
  | .eq r1 r2 _ | .neq r1 r2 _ | .gte r1 r2 _ | .lte r1 r2 _ | .lt r1 r2 _ | .gt r1 r2 _ => r1.inRange && r2.inRange
  | .hlt | .nop _ _ _ | .illegal _ => true

/-- A well-formed instruction. -/
def Instr.wellFormed (i : Instr) : Bool := i.complete && i.regsInRange

end Sys2Proof
end

