-- ==== Sys2Proof/Decode.lean ====
section
/-! DEFINITION. The opcode table in both directions (spec/30_encoding.md R41 to R43), the decoder (R37 to R40), the lengths
(R44), and after it the encoder. -/

namespace Sys2Proof

open Config (RelJumpCodes JmpeFalseMode Params)

/-- `from_byte`: total on all 256 bytes (spec/30_encoding.md R41, R42, R43). -/
def fromByte (codes : RelJumpCodes) (b : Byte) : Opcode :=
  match b.toNat with
  | 0 => .load
  | 1 => .add
  | 2 => .sub
  | 3 => .mul
  | 4 => .div
  | 5 => .hlt
  | 6 => .jmp
  | 7 => match codes with
    | .doc => .jmpb
    | .swapped => .jmpf
  | 8 => match codes with
    | .doc => .jmpf
    | .swapped => .jmpb
  | 9 => .eq
  | 10 => .neq
  | 11 => .gte
  | 12 => .lte
  | 13 => .lt
  | 14 => .gt
  | 15 => .jmpe
  | 16 => .nop
  | 17 => .aloc
  | _ => .illegal

/-- `to_byte` (spec/30_encoding.md R43). -/
def Opcode.toByte (codes : RelJumpCodes) : Opcode → Byte
  | .load => 0
  | .add => 1
  | .sub => 2
  | .mul => 3
  | .div => 4
  | .hlt => 5
  | .jmp => 6
  | .jmpb => match codes with
    | .doc => 7
    | .swapped => 8
  | .jmpf => match codes with
    | .doc => 8
    | .swapped => 7
  | .eq => 9
  | .neq => 10
  | .gte => 11
  | .lte => 12
  | .lt => 13
  | .gt => 14
  | .jmpe => 15
  | .nop => 16
  | .aloc => 17
  | .illegal => Config.illegalCode

/-- Immediate assembly: `{b2, b3}`, the byte at the lower offset is the high byte (spec/30_encoding.md R40). -/
def bigEndian16 (hi lo : Byte) : Half := hi ++ lo

/-- The 16-bit immediate whose first byte is byte `k` of the list, if both its bytes are there (spec/40_engine.md R55). -/
def immAt (bs : List Byte) (k : Nat) : ImmOperand :=
  match bs[k]?, bs[k + 1]? with
  | some hi, some lo => some (bigEndian16 hi lo)
  | _, _ => none

/-- Why the decoder gives no instruction. -/
inductive DecodeError where
  /-- There is no opcode byte: the step's precondition `pc < prog_len` fails (spec/40_engine.md R52). -/
  | noInstruction
  deriving DecidableEq, Repr

/-- The decoder: the instruction whose bytes begin the list, `none` standing for each operand byte the list does not have.
Total on any bytes: it rejects the empty list alone, by name; every opcode byte 18 to 255 is ILLEGAL (spec/30_encoding.md R42,
R43, R46). -/
def decode (codes : RelJumpCodes) : List Byte → Except DecodeError Instr
  | [] => .error .noInstruction
  | b0 :: bs => .ok (
    match fromByte codes b0 with
    | .load => .load bs[0]? (immAt bs 1)
    | .add => .add bs[0]? bs[1]? bs[2]?
    | .sub => .sub bs[0]? bs[1]? bs[2]?
    | .mul => .mul bs[0]? bs[1]? bs[2]?
    | .div => .div bs[0]? bs[1]? bs[2]?
    | .hlt => .hlt
    | .jmp => .jmp bs[0]?
    | .jmpb => .jmpb bs[0]?
    | .jmpf => .jmpf bs[0]?
    | .eq => .eq bs[0]? bs[1]? bs[2]?
    | .neq => .neq bs[0]? bs[1]? bs[2]?
    | .gte => .gte bs[0]? bs[1]? bs[2]?
    | .lte => .lte bs[0]? bs[1]? bs[2]?
    | .lt => .lt bs[0]? bs[1]? bs[2]?
    | .gt => .gt bs[0]? bs[1]? bs[2]?
    | .jmpe => .jmpe bs[0]?
    | .nop => .nop bs[0]? bs[1]? bs[2]?
    | .aloc => .aloc bs[0]?
    | .illegal => .illegal b0)

/-- The opcode byte of an instruction: ILLEGAL carries its own, every other opcode has `to_byte`'s. -/
def Instr.opcodeByte (codes : RelJumpCodes) : Instr → Byte
  | .illegal b0 => b0
  | i => i.opcode.toByte codes

/-- The bytes a completed instruction consumes, its opcode byte included (spec/30_encoding.md R44); only JMPE's number depends
on `equal_flag` (R51). -/
def Instr.length (p : Params) (equalFlag : Bool) : Instr → Nat
  | .load _ _ => 4
  | .add _ _ _ | .sub _ _ _ | .mul _ _ _ | .div _ _ _ => 4
  | .jmp _ | .jmpf _ | .jmpb _ => 2
  | .eq _ _ _ | .neq _ _ _ | .gt _ _ _ | .gte _ _ _ | .lt _ _ _ | .lte _ _ _ => 4
  | .jmpe _ => if equalFlag then 2 else match p.jmpeFalseMode with
    | .referenceNoConsume => 1
    | .correctedConsume => 2
  | .hlt => 1
  | .nop _ _ _ => 1 + Config.nopSkip
  | .aloc _ => 2
  | .illegal _ => 1

/-- The two bytes of an immediate, high byte first (spec/30_encoding.md R40). -/
def ImmOperand.bytes : ImmOperand → List Byte
  | none => []
  | some v => [v.extractLsb' 8 8, v.extractLsb' 0 8]

/-- The operand bytes of an instruction in stream order (spec/30_encoding.md R39), an absent one contributing nothing. -/
def Instr.operandBytes : Instr → List Byte
  | .load r imm => r.toList ++ ImmOperand.bytes imm
  | .add r1 r2 r3 | .sub r1 r2 r3 | .mul r1 r2 r3 | .div r1 r2 r3 => r1.toList ++ r2.toList ++ r3.toList
  | .jmp r | .jmpb r | .jmpf r | .jmpe r | .aloc r => r.toList
  | .eq r1 r2 p | .neq r1 r2 p | .gte r1 r2 p | .lte r1 r2 p | .lt r1 r2 p | .gt r1 r2 p => r1.toList ++ r2.toList ++ p.toList
  | .nop s1 s2 s3 => s1.toList ++ s2.toList ++ s3.toList
  | .hlt | .illegal _ => []

/-- The encoder: the bytes of an instruction in stream order (spec/30_encoding.md R39, R41). -/
def encode (codes : RelJumpCodes) (i : Instr) : List Byte := i.opcodeByte codes :: i.operandBytes

/-- The bytes of a table word, the opcode byte first: byte `k` is bits `8k+7 .. 8k`, and the bits above `nbits` are 0. -/
def tableBytes (nbits w : Nat) : List Byte :=
  [0, 1, 2, 3].map fun k => BitVec.ofNat 8 (w % 2 ^ nbits / 256 ^ k)

/-- The instruction the decoder reads from a word of spec/opcode_table.json, under the table's `REL_JUMP_CODES = doc`. -/
def decodeTableWord (nbits w : Nat) : Option Instr :=
  match decode .doc (tableBytes nbits w) with
  | .ok i => some i
  | .error _ => none

end Sys2Proof
end

