-- ==== Sys2Proof/Machine/State.lean ====
section
/-! DEFINITION. The state: everything spec/10_state.md gives the block, the implementation parameters of spec/00_scope.md R4,
and the outcome the last step returned to the host; the six faults; reset. -/

namespace Sys2Proof.Machine

open Sys2Proof.Config (Params)

/-- The program space: (offset, byte) cells with strictly rising offsets. An unlisted offset is not there
(spec/20_memory.md R31; log entry 4). -/
abbrev Memory := List Host.Cell

/-- What an unlisted offset reads as: no value, since an offset at or beyond `prog_len` "is simply not there"
(spec/20_memory.md R31). -/
def Memory.unlisted : Option Byte := none

/-- The six fault kinds (spec/60_exceptions.md R90). -/
inductive FaultKind where
  | invalidOpcode | registerIndexOutOfRange | divideByZero | negativeAllocation | truncatedInstruction | heapExhausted
  deriving DecidableEq, Repr

/-- A fault with the detail its record holds (spec/60_exceptions.md R90, R98). The spec defines the state each leaves and lets
the host step on (R97, R101), so a meaning TAKES a fault: the next state reports it (log entry 1). No step of this model answers
with `Host.Outcome.fault`; safe. -/
inductive Fault where
  /-- Code 1: ILLEGAL raises it (R91, spec/45_control.md R87). Safe: the spec's own fault. -/
  | invalidOpcode
  /-- Code 2: `NextReg` raises it on a register operand byte of 32 or more (R92): the byte and its offset. Safe: the spec's own
  fault. -/
  | registerIndexOutOfRange (index : Byte) (offset : Word)
  /-- Code 3: DIV raises it on a divisor of 0 (R93): the divisor register. Safe: the spec's own fault. -/
  | divideByZero (divisorReg : Reg)
  /-- Code 4: ALOC raises it on a negative growth (R94): the growth. Safe: the spec's own fault. -/
  | negativeAllocation (value : Int)
  /-- Code 5: `NextByte` and `NextImm16` raise it where bytes are missing (R95): the offset of the incomplete operand. Safe: the
  spec's own fault. -/
  | truncatedInstruction (offset : Word)
  /-- Code 6: ALOC raises it when the heap would pass `HEAP_CAPACITY` (R96): the growth. Safe: the spec's own fault. -/
  | heapExhausted (value : Int)
  deriving DecidableEq, Repr

/-- The kind of a fault (spec/60_exceptions.md R90, R98). -/
def Fault.kind : Fault → FaultKind
  | .invalidOpcode => .invalidOpcode
  | .registerIndexOutOfRange _ _ => .registerIndexOutOfRange
  | .divideByZero _ => .divideByZero
  | .negativeAllocation _ => .negativeAllocation
  | .truncatedInstruction _ => .truncatedInstruction
  | .heapExhausted _ => .heapExhausted

/-- The numeric code of a fault kind (spec/60_exceptions.md R90). -/
def FaultKind.code : FaultKind → Nat
  | .invalidOpcode => 1
  | .registerIndexOutOfRange => 2
  | .divideByZero => 3
  | .negativeAllocation => 4
  | .truncatedInstruction => 5
  | .heapExhausted => 6

/-- Why an instruction has no meaning. -/
inductive Refusal where
  /-- Raised by an arm of `exec` whose instruction is not modelled; no arm of this model is. Safe: the machine stops. -/
  | notModelled (mnemonic : String)
  deriving DecidableEq, Repr

/-- Which instruction a step performs: its address `a` and its opcode byte `b0` (spec/40_engine.md R52). -/
structure Site where
  /-- `a`, the offset of the opcode byte. -/
  a : Word
  /-- `b0`, the opcode byte. -/
  b0 : Byte
  deriving DecidableEq, Repr

/-- The fault record returned to the host (spec/60_exceptions.md R98); code and kind are functions of the fault. -/
structure FaultRecord where
  /-- The faulting instruction's address and opcode byte. -/
  site : Site
  /-- The kind and its detail. -/
  fault : Fault
  deriving DecidableEq, Repr

/-- The record's `kind` (spec/60_exceptions.md R98). -/
def FaultRecord.kind (r : FaultRecord) : FaultKind := r.fault.kind

/-- The record's `code` (spec/60_exceptions.md R98). -/
def FaultRecord.code (r : FaultRecord) : Nat := r.kind.code

/-- The four outcomes of a step (spec/40_engine.md R58). -/
inductive StepOutcome where
  /-- `Continue`: the instruction completed. -/
  | continued
  /-- `Halt`: HLT executed. -/
  | halted
  /-- `Exhausted`: `pc >= prog_len` at the start of the step. -/
  | exhausted
  /-- `Fault(K, info)`. -/
  | faulted (r : FaultRecord)
  deriving DecidableEq, Repr

/-- The state of the block (spec/10_state.md R10), its parameters (spec/00_scope.md R4), and the model's own `report`. -/
structure State where
  /-- `x[0] .. x[31]` (R12). -/
  regs : Vector Word Config.regCount
  /-- `pc` (R15). -/
  pc : Word
  /-- `equal_flag` (R19). -/
  equalFlag : Bool
  /-- `remainder` (R20). -/
  remainder : Word
  /-- `heap_len`; every heap byte is zero (R21, R22; log entry 5). -/
  heapLen : Nat
  /-- The program bytes (R23; log entry 4). -/
  program : Memory
  /-- The implementation parameters; no step and no host operation changes them (log entry 2). -/
  params : Params
  /-- The MODEL's field: the outcome the last step returned to the host, `none` before the first; no step reads it
  (spec/40_engine.md R58, R63; log entry 1). -/
  report : Option StepOutcome
  deriving DecidableEq, Repr

/-- The state with its register file replaced. -/
def State.setRegs (s : State) (v : Vector Word Config.regCount) : State := { s with regs := v }

/-- The state with `pc` replaced. -/
def State.setPc (s : State) (v : Word) : State := { s with pc := v }

/-- The state with `equal_flag` replaced. -/
def State.setEqualFlag (s : State) (v : Bool) : State := { s with equalFlag := v }

/-- The state with `remainder` replaced. -/
def State.setRemainder (s : State) (v : Word) : State := { s with remainder := v }

/-- The state with `heap_len` replaced. -/
def State.setHeapLen (s : State) (v : Nat) : State := { s with heapLen := v }

/-- The state with the program replaced. -/
def State.setProgram (s : State) (v : Memory) : State := { s with program := v }

/-- The state with an outcome reported to the host. -/
def State.setReport (s : State) (v : StepOutcome) : State := { s with report := some v }

/-- The block right after reset with the given parameters: every field at the value of spec/10_state.md R24.
DESIGN CHOICE (log entry 6): no outcome has been reported. -/
def State.resetWith (p : Params) : State where
  regs := Vector.replicate Config.regCount 0
  pc := 0
  equalFlag := false
  remainder := 0
  heapLen := 0
  program := []
  params := p
  report := none

/-- The block right after reset (spec/10_state.md R24, spec/70_reset_and_hazards.md R108) with `Config.defaultParams`
(log entry 3). -/
def State.reset : State := State.resetWith Config.defaultParams

end Sys2Proof.Machine
end

