-- ==== Sys2Proof/Machine/Ops.lean ====
section
/-! DEFINITION. The named operations over the program space, the registers, the heap and the host's report: reading and
appending program bytes, the fetch, taking a fault, ending a step. -/

namespace Sys2Proof.Machine

/-- What one step answers. -/
abbrev Outcome := Host.Outcome State Fault Refusal

/-! ### Program space -/

/-- The byte at an offset of the program space, `none` where there is none (spec/20_memory.md R31). -/
def Memory.byteAt : Memory → Nat → Option Byte
  | [], _ => Memory.unlisted
  | (a, b) :: m, x => if a = x then some b else Memory.byteAt m x

/-- The cells with one byte put at an offset. -/
def Memory.write : Memory → Nat → Byte → Memory
  | [], x, v => [(x, v)]
  | (a, b) :: m, x, v =>
    if x < a then (x, v) :: (a, b) :: m
    else if x = a then (x, v) :: m
    else (a, b) :: Memory.write m x v

/-- One past the highest listed offset: `prog_len` (spec/10_state.md R23; log entry 4). -/
def Memory.extent : Memory → Nat
  | [] => 0
  | (a, _) :: m => max (a + 1) (Memory.extent m)

/-- The canonical form: strictly rising offsets. (No entry can equal what an unlisted offset reads as, no value.) -/
abbrev Memory.wf (m : Memory) : Prop := m.Pairwise fun c d => c.1 < d.1

/-- The cells are the offsets 0, 1, 2, ... with none left out: a byte sequence (spec/10_state.md R23). -/
abbrev Memory.dense (m : Memory) : Prop := m.map Prod.fst = List.range m.length

/-- The cells with bytes added at the end (spec/40_engine.md R64). -/
def Memory.appendBytes (m : Memory) : List Byte → Memory
  | [] => m
  | b :: bs => Memory.appendBytes (m.write m.extent b) bs

/-- The cells with bytes put at a place and on from it, offsets modulo 2^32. -/
def Memory.writeBytes (m : Memory) (p : Word) : List Byte → Memory
  | [] => m
  | b :: bs => Memory.writeBytes (m.write p.toNat b) (p + 1) bs

/-- Up to `n` bytes from offset `p` on, ending at the first that is not there. A read has no side effect
(spec/20_memory.md R26, R30; log entry 7). -/
def Memory.fetch (m : Memory) : Nat → Word → List Byte
  | 0, _ => []
  | n + 1, p =>
    match m.byteAt p.toNat with
    | none => []
    | some b => b :: Memory.fetch m n (p + 1)

/-- `prog_len` (spec/10_state.md R23). -/
def State.progLen (s : State) : Nat := s.program.extent

/-- The bytes an instruction at `pc` can span (spec/30_encoding.md R39). -/
def State.fetchWindow (s : State) : List Byte := s.program.fetch Config.maxLength s.pc

/-! ### Registers -/

/-- Read `x[i]` (spec/00_scope.md R7); no register is hardwired (spec/10_state.md R12). -/
def State.readReg (s : State) (i : Reg) : Word := s.regs[i.val]

/-- Write `x[i]` (spec/00_scope.md R7); no register is hardwired (spec/10_state.md R12). -/
def State.writeReg (s : State) (i : Reg) (v : Word) : State := s.setRegs (s.regs.set i.val v)

/-! ### Heap -/

/-- The heap byte at an offset: zero below `heap_len`, not there at or beyond it (spec/10_state.md R21, R22). -/
def State.heapByteAt (s : State) (x : Nat) : Option Byte := if x < s.heapLen then some 0 else none

/-- `HeapGrow(n)`: `n` zero bytes are added at the heap's end (spec/00_scope.md R7). -/
def State.heapGrow (s : State) (n : Nat) : State := s.setHeapLen (s.heapLen + n)

/-! ### The step's frame -/

/-- The opcode fetch: `pc <- wrap32(pc + 1)` (spec/40_engine.md R52). -/
def State.opcodeFetched (s : State) : State := s.setPc (s.pc + 1)

/-- The address and opcode byte of an instruction with the named opcode `op`, before its opcode fetch (spec/40_engine.md R52;
log entry 10). -/
def State.siteOf (s : State) (op : Opcode) : Site := ⟨s.pc, op.toByte s.params.relJumpCodes⟩

/-- TAKING A FAULT: `raise K(info)` (spec/00_scope.md R8, spec/60_exceptions.md R97, R98, R100). The step ends with the record
returned to the host; `pc` stays where the fetches left it and nothing else changes. There is no vector, saved register, mode
change or return. -/
def raiseFault (site : Site) (f : Fault) (s : State) : Outcome := .next (s.setReport (.faulted ⟨site, f⟩))

/-- `outcome Continue` (spec/40_engine.md R58). -/
def continueStep (s : State) : Outcome := .next (s.setReport .continued)

/-- `outcome Halt` (spec/40_engine.md R58, spec/45_control.md R85). -/
def haltStep (s : State) : Outcome := .next (s.setReport .halted)

/-- `Exhausted`: no state is changed (spec/40_engine.md R52, R58). -/
def exhaustStep (s : State) : Outcome := .next (s.setReport .exhausted)

end Sys2Proof.Machine
end

