-- ==== Sys2Proof/Machine/Operands.lean ====
section
/-! DEFINITION. The operand-fetch primitives of spec/40_engine.md R53 to R56, the operand formats of spec/30_encoding.md R39,
and the views of spec/00_scope.md R6. Each primitive passes what it read, and the state with `pc` moved past it, to the rest of
the instruction's rule, or raises its fault. -/

namespace Sys2Proof.Machine

/-! ### Views of a value (spec/00_scope.md R6) -/

/-- `s32(v)`. -/
def s32 (v : Word) : Int := v.toInt

/-- `wrap32(n)`. -/
def wrap32 (n : Int) : Word := BitVec.ofInt 32 n

/-- `zext_32(v)` of a 16-bit value. -/
def zext32 (v : Half) : Word := v.zeroExtend 32

/-- The byte that names register `r` (spec/10_state.md R14). -/
def regByte (r : Reg) : Byte := BitVec.ofNat 8 r.val

/-- The register an operand byte names, `none` for 32 to 255 (spec/10_state.md R14). -/
def regOf (b : Byte) : Option Reg := if h : b.toNat < Config.regCount then some ⟨b.toNat, h⟩ else none

/-! ### Fetch primitives -/

/-- `NextByte()` (spec/40_engine.md R53). -/
def nextByte (site : Site) (o : Operand) (s : State) (k : Byte → State → Outcome) : Outcome :=
  match o with
  | none => raiseFault site (.truncatedInstruction s.pc) s
  | some b => k b (s.setPc (s.pc + 1))

/-- `NextReg()`: the check is made as the byte is consumed, before any later operand byte (spec/40_engine.md R54). -/
def nextReg (site : Site) (o : Operand) (s : State) (k : Reg → State → Outcome) : Outcome :=
  nextByte site o s fun b s1 =>
    match regOf b with
    | none => raiseFault site (.registerIndexOutOfRange b (s1.pc - 1)) s1
    | some i => k i s1

/-- `NextImm16()`: both bytes are checked before either is consumed (spec/40_engine.md R55). -/
def nextImm16 (site : Site) (o : ImmOperand) (s : State) (k : Half → State → Outcome) : Outcome :=
  match o with
  | none => raiseFault site (.truncatedInstruction s.pc) s
  | some v => k v (s.setPc (s.pc + 2))

/-- `Skip(n)`: no byte is read or checked (spec/40_engine.md R56). -/
def skip (n : Nat) (s : State) : State := s.setPc (s.pc + BitVec.ofNat 32 n)

/-! ### Formats (spec/30_encoding.md R39), operands fetched in stream order (spec/40_engine.md R57) -/

/-- Format R: one register operand. -/
def withR (op : Opcode) (r : Operand) (s : State) (k : Reg → State → Outcome) : Outcome :=
  nextReg (s.siteOf op) r s.opcodeFetched k

/-- Format RRR: three register operands. -/
def withRRR (op : Opcode) (r1 r2 r3 : Operand) (s : State) (k : Reg → Reg → Reg → State → Outcome) : Outcome :=
  nextReg (s.siteOf op) r1 s.opcodeFetched fun i1 s1 =>
    nextReg (s.siteOf op) r2 s1 fun i2 s2 =>
      nextReg (s.siteOf op) r3 s2 fun i3 s3 => k i1 i2 i3 s3

/-- Format RRP: two register operands and a padding byte, which is read and ignored (spec/30_encoding.md R45). -/
def withRRP (op : Opcode) (r1 r2 p : Operand) (s : State) (k : Reg → Reg → State → Outcome) : Outcome :=
  nextReg (s.siteOf op) r1 s.opcodeFetched fun i1 s1 =>
    nextReg (s.siteOf op) r2 s1 fun i2 s2 =>
      nextByte (s.siteOf op) p s2 fun _ s3 => k i1 i2 s3

/-- Format RI: a register operand and a 16-bit immediate. -/
def withRI (op : Opcode) (r : Operand) (imm : ImmOperand) (s : State) (k : Reg → Half → State → Outcome) : Outcome :=
  nextReg (s.siteOf op) r s.opcodeFetched fun i s1 =>
    nextImm16 (s.siteOf op) imm s1 fun v s2 => k i v s2

end Sys2Proof.Machine
end

