-- ==== Sys2Proof/Machine/Arith.lean ====
section
/-! DEFINITION. ADD, SUB, MUL and DIV (spec/42_arith.md). -/

namespace Sys2Proof.Machine

/-- The family's law: the exact result of the signed sources, reduced modulo 2^32 into the destination; sources are read before
the destination is written (spec/42_arith.md R69). -/
def arith (op : Opcode) (f : Int → Int → Int) (r1 r2 r3 : Operand) (s : State) : Outcome :=
  withRRR op r1 r2 r3 s fun i1 i2 i3 s' =>
    continueStep (s'.writeReg i3 (wrap32 (f (s32 (s'.readReg i1)) (s32 (s'.readReg i2)))))

/-- ADD (spec/42_arith.md R70). -/
def execAdd (r1 r2 r3 : Operand) (s : State) : Outcome := arith .add (fun n d => n + d) r1 r2 r3 s

/-- SUB, the first operand is the minuend (spec/42_arith.md R71). -/
def execSub (r1 r2 r3 : Operand) (s : State) : Outcome := arith .sub (fun n d => n - d) r1 r2 r3 s

/-- MUL (spec/42_arith.md R72). -/
def execMul (r1 r2 r3 : Operand) (s : State) : Outcome := arith .mul (fun n d => n * d) r1 r2 r3 s

/-- The quotient `q` of DIV, rounded toward zero, with the one overflow case (spec/42_arith.md R73). -/
def divQuotient (n d : Int) : Int := if n = -2 ^ 31 ∧ d = -1 then -2 ^ 31 else Int.tdiv n d

/-- The remainder `m` of DIV (spec/42_arith.md R73). -/
def divRemainder (n d : Int) : Int := if n = -2 ^ 31 ∧ d = -1 then 0 else n - Int.tdiv n d * d

/-- DIV (spec/42_arith.md R73). -/
def execDiv (r1 r2 r3 : Operand) (s : State) : Outcome :=
  withRRR .div r1 r2 r3 s fun i1 i2 i3 s' =>
    if s32 (s'.readReg i2) = 0 then raiseFault (s.siteOf .div) (.divideByZero i2) s'
    else continueStep ((s'.writeReg i3 (wrap32 (divQuotient (s32 (s'.readReg i1)) (s32 (s'.readReg i2))))).setRemainder
      (wrap32 (divRemainder (s32 (s'.readReg i1)) (s32 (s'.readReg i2)))))

end Sys2Proof.Machine
end

