-- ==== Sys2Proof/Machine/Flags.lean ====
section
/-! DEFINITION. The one flag, `equal_flag` (spec/10_state.md R19), and the relations the comparisons put into it
(spec/44_compare.md R77 to R83): signed, the first operand on the left. -/

namespace Sys2Proof.Machine

/-- EQ's relation (spec/44_compare.md R78). -/
def relEq (a b : Word) : Bool := decide (s32 a = s32 b)

/-- NEQ's relation (spec/44_compare.md R79). -/
def relNeq (a b : Word) : Bool := decide (s32 a ≠ s32 b)

/-- GT's relation (spec/44_compare.md R80). -/
def relGt (a b : Word) : Bool := decide (s32 a > s32 b)

/-- GTE's relation (spec/44_compare.md R81). -/
def relGte (a b : Word) : Bool := decide (s32 a ≥ s32 b)

/-- LT's relation (spec/44_compare.md R82). -/
def relLt (a b : Word) : Bool := decide (s32 a < s32 b)

/-- LTE's relation (spec/44_compare.md R83). -/
def relLte (a b : Word) : Bool := decide (s32 a ≤ s32 b)

/-- `COMPARE(rel)` (spec/44_compare.md R77). -/
def compareRegs (op : Opcode) (rel : Word → Word → Bool) (r1 r2 p : Operand) (s : State) : Outcome :=
  withRRP op r1 r2 p s fun i1 i2 s' => continueStep (s'.setEqualFlag (rel (s'.readReg i1) (s'.readReg i2)))

end Sys2Proof.Machine
end

