-- ==== Sys2Proof/Machine/Compare.lean ====
section
/-! DEFINITION. EQ, NEQ, GT, GTE, LT, LTE and JMPE (spec/44_compare.md). -/

namespace Sys2Proof.Machine

/-- EQ (spec/44_compare.md R78). -/
def execEq (r1 r2 p : Operand) (s : State) : Outcome := compareRegs .eq relEq r1 r2 p s

/-- NEQ (spec/44_compare.md R79). -/
def execNeq (r1 r2 p : Operand) (s : State) : Outcome := compareRegs .neq relNeq r1 r2 p s

/-- GT (spec/44_compare.md R80). -/
def execGt (r1 r2 p : Operand) (s : State) : Outcome := compareRegs .gt relGt r1 r2 p s

/-- GTE (spec/44_compare.md R81). -/
def execGte (r1 r2 p : Operand) (s : State) : Outcome := compareRegs .gte relGte r1 r2 p s

/-- LT (spec/44_compare.md R82). -/
def execLt (r1 r2 p : Operand) (s : State) : Outcome := compareRegs .lt relLt r1 r2 p s

/-- LTE (spec/44_compare.md R83). -/
def execLte (r1 r2 p : Operand) (s : State) : Outcome := compareRegs .lte relLte r1 r2 p s

/-- JMPE (spec/44_compare.md R84): taken on a true flag; on a false one the operand byte is consumed and not used, or not read
at all, as `JMPE_FALSE_MODE` says. -/
def execJmpe (r : Operand) (s : State) : Outcome :=
  if s.equalFlag then withR .jmpe r s fun i s' => continueStep (s'.setPc (s'.readReg i))
  else
    match s.params.jmpeFalseMode with
    | .referenceNoConsume => continueStep s.opcodeFetched
    | .correctedConsume => withR .jmpe r s fun _ s' => continueStep s'

end Sys2Proof.Machine
end

