-- ==== Sys2Proof/Machine/Control.lean ====
section
/-! DEFINITION. HLT, NOP and ILLEGAL (spec/45_control.md). -/

namespace Sys2Proof.Machine

/-- HLT: it halts the run, not the block (spec/45_control.md R85). -/
def execHlt (s : State) : Outcome := haltStep s.opcodeFetched

/-- NOP: the three bytes are skipped, whatever they hold and whether or not they are there (spec/45_control.md R86). -/
def execNop (_s1 _s2 _s3 : Operand) (s : State) : Outcome := continueStep (skip Config.nopSkip s.opcodeFetched)

/-- ILLEGAL: it raises `InvalidOpcode` (spec/45_control.md R87). -/
def execIllegal (b0 : Byte) (s : State) : Outcome := raiseFault ⟨s.pc, b0⟩ .invalidOpcode s.opcodeFetched

end Sys2Proof.Machine
end

