-- ==== Sys2Proof/Machine/Heap.lean ====
section
/-! DEFINITION. ALOC (spec/46_heap.md). -/

namespace Sys2Proof.Machine

/-- ALOC: the growth is checked for its sign, then against `HEAP_CAPACITY` (spec/46_heap.md R88). -/
def execAloc (r : Operand) (s : State) : Outcome :=
  withR .aloc r s fun i s' =>
    if s32 (s'.readReg i) < 0 then raiseFault (s.siteOf .aloc) (.negativeAllocation (s32 (s'.readReg i))) s'
    else if s'.params.heapCapacity < s'.heapLen + (s32 (s'.readReg i)).toNat then
      raiseFault (s.siteOf .aloc) (.heapExhausted (s32 (s'.readReg i))) s'
    else continueStep (s'.heapGrow (s32 (s'.readReg i)).toNat)

end Sys2Proof.Machine
end

