-- ==== Sys2Proof/Machine/Jump.lean ====
section
/-! DEFINITION. JMP, JMPF and JMPB (spec/43_jump.md). -/

namespace Sys2Proof.Machine

/-- JMP: the register's pattern is the absolute target (spec/43_jump.md R74). -/
def execJmp (r : Operand) (s : State) : Outcome :=
  withR .jmp r s fun i s' => continueStep (s'.setPc (s'.readReg i))

/-- The base of a relative jump is `pc` as the operand read left it (spec/10_state.md R16), and the sum is modulo 2^32
(spec/10_state.md R18). -/
def jumpForward (i : Reg) (s : State) : State := s.setPc (wrap32 (s.pc.toNat + s32 (s.readReg i)))

/-- The same base, the offset subtracted (spec/43_jump.md R76). -/
def jumpBackward (i : Reg) (s : State) : State := s.setPc (wrap32 (s.pc.toNat - s32 (s.readReg i)))

/-- JMPF (spec/43_jump.md R75). -/
def execJmpf (r : Operand) (s : State) : Outcome :=
  withR .jmpf r s fun i s' => continueStep (jumpForward i s')

/-- JMPB, under either `JMPB_MODE` (spec/43_jump.md R76). -/
def execJmpb (r : Operand) (s : State) : Outcome :=
  withR .jmpb r s fun i s' =>
    match s'.params.jmpbMode with
    | .referenceAdd => continueStep (jumpForward i s')
    | .correctedSubtract => continueStep (jumpBackward i s')

end Sys2Proof.Machine
end

