-- ==== Sys2Proof/Machine/Load.lean ====
section
/-! DEFINITION. LOAD (spec/41_load.md). -/

namespace Sys2Proof.Machine

/-- LOAD (spec/41_load.md R68). -/
def execLoad (r : Operand) (imm : ImmOperand) (s : State) : Outcome :=
  withRI .load r imm s fun i v s' => continueStep (s'.writeReg i (zext32 v))

end Sys2Proof.Machine
end

