-- ==== Sys2Proof/Machine/Dispatch.lean ====
section
/-! DEFINITION. The dispatch (spec/40_engine.md R59): one meaning per instruction. -/

namespace Sys2Proof.Machine

def exec (i : Instr) (s : State) : Host.Outcome State Fault Refusal :=
  match i with
  | .load r imm => Sys2Proof.Machine.execLoad r imm s
  | .add r1 r2 r3 => Sys2Proof.Machine.execAdd r1 r2 r3 s
  | .sub r1 r2 r3 => Sys2Proof.Machine.execSub r1 r2 r3 s
  | .mul r1 r2 r3 => Sys2Proof.Machine.execMul r1 r2 r3 s
  | .div r1 r2 r3 => Sys2Proof.Machine.execDiv r1 r2 r3 s
  | .hlt => Sys2Proof.Machine.execHlt s
  | .jmp r => Sys2Proof.Machine.execJmp r s
  | .jmpb r => Sys2Proof.Machine.execJmpb r s
  | .jmpf r => Sys2Proof.Machine.execJmpf r s
  | .eq r1 r2 p => Sys2Proof.Machine.execEq r1 r2 p s
  | .neq r1 r2 p => Sys2Proof.Machine.execNeq r1 r2 p s
  | .gte r1 r2 p => Sys2Proof.Machine.execGte r1 r2 p s
  | .lte r1 r2 p => Sys2Proof.Machine.execLte r1 r2 p s
  | .lt r1 r2 p => Sys2Proof.Machine.execLt r1 r2 p s
  | .gt r1 r2 p => Sys2Proof.Machine.execGt r1 r2 p s
  | .jmpe r => Sys2Proof.Machine.execJmpe r s
  | .nop s1 s2 s3 => Sys2Proof.Machine.execNop s1 s2 s3 s
  | .aloc r => Sys2Proof.Machine.execAloc r s
  | .illegal b0 => Sys2Proof.Machine.execIllegal b0 s

end Sys2Proof.Machine
end

