-- ==== Sys2Proof/Machine/Step.lean ====
section
/-! DEFINITION. One step (spec/40_engine.md R52). -/

namespace Sys2Proof.Machine

/-- `step()` (spec/40_engine.md R52): where no byte stands at `pc` the step reports `Exhausted`; elsewhere it performs the rule
of the instruction that begins there. -/
def step (s : State) : Host.Outcome State Fault Refusal :=
  match decode s.params.relJumpCodes s.fetchWindow with
  | .error .noInstruction => exhaustStep s
  | .ok i => exec i s

/-- `s` with the bytes of a table word stored where the step fetches, at `pc` and on (log entry 11). -/
def State.withFetchWord (s : State) (nbits w : Nat) : State :=
  s.setProgram (s.program.writeBytes s.pc (tableBytes nbits w))

end Sys2Proof.Machine
end

