-- ==== Sys2Proof/Machine/HostPort.lean ====
section
/-! DEFINITION. The host operations (spec/40_engine.md R60 to R67, spec/70_reset_and_hazards.md R108). They act between steps
(spec/20_memory.md R33). -/

namespace Sys2Proof.Machine

/-- What `append` answers (spec/40_engine.md R64). -/
inductive AppendResult where
  | accepted
  | refused
  deriving DecidableEq, Repr

/-- `append(bytes)` (spec/40_engine.md R64). -/
def appendProgram (bs : List Byte) (s : State) : AppendResult × State :=
  if s.params.progCapacity < s.progLen + bs.length then (.refused, s)
  else (.accepted, s.setProgram (s.program.appendBytes bs))

/-- `run_one()`: one step (spec/40_engine.md R61). Every step of this model answers a next state; its outcome is in `report`. -/
def runOne (s : State) : State :=
  match step s with
  | .next t => t
  | .fault _ => s
  | .refused _ => s

/-- Where a bounded run is. -/
inductive RunResult where
  /-- `run()` returned: the last step's outcome, in `report`, is not `Continue`. -/
  | ended (s : State)
  /-- The bound is used up and every step so far gave `Continue`. -/
  | running (s : State)
  deriving DecidableEq, Repr

/-- `run()` watched for at most `n` steps: it repeats the step until an outcome other than `Continue` (spec/40_engine.md R60). A
run that never returns (R62) is `running` for every bound (log entry 9). -/
def runFor : Nat → State → RunResult
  | 0, s => .running s
  | n + 1, s => if (runOne s).report = some .continued then runFor n (runOne s) else .ended (runOne s)

/-- `append_and_step(bytes)` (spec/40_engine.md R65). -/
def appendAndStep (bs : List Byte) (s : State) : AppendResult × State :=
  match appendProgram bs s with
  | (.accepted, t) => (.accepted, runOne t)
  | (.refused, t) => (.refused, t)

/-- `reset()`: every piece of state at its reset value (spec/70_reset_and_hazards.md R108); the parameters are the block's own
and stay. -/
def hostReset (s : State) : State := State.resetWith s.params

/-- What the host may read between steps (spec/40_engine.md R66). -/
structure Inspection where
  regs : Vector Word Config.regCount
  pc : Word
  equalFlag : Bool
  remainder : Word
  heapLen : Nat
  heapBytes : List Byte
  progLen : Nat
  programBytes : List Byte
  deriving DecidableEq, Repr

/-- Host inspection: a read, which changes nothing (spec/40_engine.md R66). -/
def inspect (s : State) : Inspection where
  regs := s.regs
  pc := s.pc
  equalFlag := s.equalFlag
  remainder := s.remainder
  heapLen := s.heapLen
  heapBytes := List.replicate s.heapLen 0
  progLen := s.progLen
  programBytes := s.program.map Prod.snd

end Sys2Proof.Machine
end

