-- ==== Sys2Proof/Safety.lean ====
section
/-! DEFINITION. What claims speak of: the invariant of the block, and a run without a fault. -/

namespace Sys2Proof.Machine

/-- The invariant: the parameters are in the ranges of spec/00_scope.md R4, the program is a byte sequence no longer than
`PROG_CAPACITY` (spec/10_state.md R23), the heap is no longer than `HEAP_CAPACITY` (R21). -/
structure State.Inv (s : State) : Prop where
  params_valid : s.params.valid
  program_dense : s.program.dense
  program_fits : s.progLen ≤ s.params.progCapacity
  heap_fits : s.heapLen ≤ s.params.heapCapacity

/-- The last step ended with a fault, the error ending (spec/40_engine.md R58). -/
def State.faulted (s : State) : Bool :=
  match s.report with
  | some (.faulted _) => true
  | _ => false

/-- No step of the run from `s` faults within `n` steps (spec/40_engine.md R58, R60). -/
def SafeFor : Nat → State → Prop
  | 0, _ => True
  | n + 1, s => (runOne s).faulted = false ∧ ((runOne s).report = some .continued → SafeFor n (runOne s))

/-- The byte of program space at an offset (spec/20_memory.md R25). -/
def State.programByteAt (s : State) (x : Nat) : Option Byte := s.program.byteAt x

/-- The fault of the first register operand, in stream order, whose byte is not there or is 32 or more, and where it leaves
`pc`: `a` is the instruction's address and `k` the place of the list's first byte in the instruction (spec/40_engine.md R53, R54,
R57, spec/60_exceptions.md R90, R99). Said apart from the fetch primitives, for claims about them. -/
def operandFault (a : Word) : Nat → List Operand → Option (Fault × Word)
  | _, [] => none
  | k, none :: _ => some (.truncatedInstruction (a + BitVec.ofNat 32 k), a + BitVec.ofNat 32 k)
  | k, some b :: os =>
    if 32 ≤ b.toNat then some (.registerIndexOutOfRange b (a + BitVec.ofNat 32 k), a + BitVec.ofNat 32 (k + 1))
    else operandFault a (k + 1) os

/-- The state a step leaves that changes nothing but `pc` and the outcome it reports. -/
def State.endsAt (s : State) (v : Word) (o : StepOutcome) : State := (s.setPc v).setReport o

end Sys2Proof.Machine
end

