-- ==== Sys2Proof/Certificates/Slice0/Obligations.lean ====
section
/-! DEFINITION. The statements for the provers. A result statement gives the whole next state by an equation, so it is the
instruction's completion and its frame in one. The code a decode clause names is that of spec/30_encoding.md R41. -/

open Sys2Proof Sys2Proof.Machine

/-- A step runs the decoded instruction; this model adds nothing around `exec` (spec/40_engine.md R52, R59). -/
def Obligations.StepRunsDecodedInstruction : Prop :=
  ∀ (s : State) (i : Instr), decode s.params.relJumpCodes s.fetchWindow = .ok i → step s = exec i s

/-- The bytes of an instruction, standing in the program at `pc`, make the step run it (spec/40_engine.md R52, R59). -/
def Obligations.StepRunsEncodedBytes : Prop :=
  ∀ (s : State) (i : Instr), i.complete = true →
    (∀ (k : Nat) (b : Byte), (encode s.params.relJumpCodes i)[k]? = some b →
      s.programByteAt (s.pc + BitVec.ofNat 32 k).toNat = some b) →
    step s = exec i s

/-- Decode and encode agree on all instructions (spec/30_encoding.md R37 to R41). Register bytes 32 to 255 are among the operands. -/
def Obligations.DecodeOfEncodeIsTheInstruction : Prop :=
  ∀ (codes : Config.RelJumpCodes) (i : Instr) (rest : List Byte), i.complete = true →
    decode codes (encode codes i ++ rest) = .ok i

/-- The other direction: no two encodings of one complete instruction (spec/30_encoding.md R39, R41). -/
def Obligations.DecodedBytesAreTheEncoding : Prop :=
  ∀ (codes : Config.RelJumpCodes) (bs : List Byte) (i : Instr), decode codes bs = .ok i → i.complete = true →
    ∃ rest, bs = encode codes i ++ rest

/-- Decoding is right on words written bit by bit from spec/30_encoding.md R39 and R41. -/
def Obligations.WrittenOutWordsDecode : Prop :=
  decode .doc [0b00000000, 0b00000011, 0b00010010, 0b00110100] = .ok (.load (some 3) (some 0x1234)) ∧
  decode .doc [0b00000010, 0b00000000, 0b00000001, 0b00011111] = .ok (.sub (some 0) (some 1) (some 31)) ∧
  decode .doc [0b00000101] = .ok .hlt ∧
  decode .doc [0b00000111, 0b00000001] = .ok (.jmpb (some 1)) ∧
  decode .swapped [0b00000111, 0b00000001] = .ok (.jmpf (some 1)) ∧
  decode .doc [0b00001110, 0b00000000, 0b00000001, 0b11111111] = .ok (.gt (some 0) (some 1) (some 255)) ∧
  decode .doc [0b00010001, 0b00000100] = .ok (.aloc (some 4)) ∧
  decode .doc [0b01100100, 0b00000000] = .ok (.illegal 100)

/-- The table of spec/30_encoding.md R41; the codes are the spec's decision D1 (log entry 8). -/
def Obligations.OpcodeMapIsTheTable : Prop :=
  (List.range 18).map (fun n => fromByte .doc (BitVec.ofNat 8 n)) =
    [.load, .add, .sub, .mul, .div, .hlt, .jmp, .jmpb, .jmpf, .eq, .neq, .gte, .lte, .lt, .gt, .jmpe, .nop, .aloc] ∧
  fromByte .swapped 7 = .jmpf ∧ fromByte .swapped 8 = .jmpb ∧
  (∀ b : Byte, b ≠ 7 → b ≠ 8 → fromByte .swapped b = fromByte .doc b) ∧
  (∀ (codes : Config.RelJumpCodes) (b : Byte), 18 ≤ b.toNat → fromByte codes b = .illegal)

/-- The opcode table's two directions (spec/30_encoding.md R43). That 100 must not stand in a program is the producer's duty. -/
def Obligations.ToByteInvertsFromByte : Prop :=
  ∀ codes : Config.RelJumpCodes,
    (∀ op : Opcode, fromByte codes (op.toByte codes) = op) ∧
    (∀ b : Byte, b.toNat < 18 → (fromByte codes b).toByte codes = b) ∧
    Opcode.illegal.toByte codes = 100 ∧
    (∀ op : Opcode, op.toByte codes = 100 → op = .illegal)

/-- spec/30_encoding.md R42. -/
def Obligations.IllegalBytesDecodeToIllegal : Prop :=
  ∀ (codes : Config.RelJumpCodes) (b0 : Byte) (bs : List Byte), 18 ≤ b0.toNat →
    decode codes (b0 :: bs) = .ok (.illegal b0)

/-- Fetch reads the program bytes the host sees (spec/20_memory.md R26, R31, R35). The decoder's missing operands are then those at or beyond `prog_len`. That up to four bytes are read at once is the model's (log entry 7). -/
def Obligations.FetchWindowIsTheProgramAtPc : Prop :=
  ∀ s : State, s.Inv → s.fetchWindow = ((inspect s).programBytes.drop s.pc.toNat).take 4

/-- The table of spec/10_state.md R24 and the reset operation of spec/70_reset_and_hazards.md R108; the values of equal_flag, remainder and program are the spec's decision D14. -/
def Obligations.ResetValues : Prop :=
  ∀ p : Config.Params,
    (∀ r : Reg, (State.resetWith p).readReg r = 0) ∧ (State.resetWith p).pc = 0 ∧
    (State.resetWith p).heapLen = 0 ∧ (∀ x, (State.resetWith p).heapByteAt x = none) ∧
    (State.resetWith p).equalFlag = false ∧ (State.resetWith p).remainder = 0 ∧
    (State.resetWith p).progLen = 0 ∧ (∀ x, (State.resetWith p).programByteAt x = none) ∧
    ∀ s : State, s.params = p → hostReset s = State.resetWith p

/-- The invariant holds at reset (spec/10_state.md R21, R23, R24). The capacities of `State.reset` are the model's choice (log entry 3). -/
def Obligations.ResetMeetsInvariant : Prop :=
  State.reset.Inv ∧ ∀ p : Config.Params, p.valid → (State.resetWith p).Inv

/-- The bounds of spec/10_state.md R21 and R23 hold of every state a step leads to, from any state that meets them. -/
def Obligations.StepKeepsInvariant : Prop :=
  ∀ s t : State, s.Inv → step s = .next t → t.Inv

/-- The host's ways to change the block (spec/40_engine.md R67) keep the bounds of spec/10_state.md R21 and R23. -/
def Obligations.HostOperationsKeepInvariant : Prop :=
  ∀ (s : State) (bs : List Byte), s.Inv →
    (appendProgram bs s).2.Inv ∧ (runOne s).Inv ∧ (appendAndStep bs s).2.Inv ∧ (hostReset s).Inv

/-- spec/40_engine.md R64; the capacity check is the spec's decision D16. -/
def Obligations.AppendAddsBytesAtTheEndOrRefuses : Prop :=
  ∀ (s : State) (bs : List Byte),
    (s.progLen + bs.length ≤ s.params.progCapacity →
      (appendProgram bs s).1 = .accepted ∧ (appendProgram bs s).2.progLen = s.progLen + bs.length ∧
      (∀ x < s.progLen, (appendProgram bs s).2.programByteAt x = s.programByteAt x) ∧
      (∀ k : Nat, (appendProgram bs s).2.programByteAt (s.progLen + k) = bs[k]?) ∧
      (appendProgram bs s).2 = s.setProgram (appendProgram bs s).2.program) ∧
    (s.params.progCapacity < s.progLen + bs.length → appendProgram bs s = (.refused, s))

/-- spec/40_engine.md R58: every step ends with exactly one outcome. That the outcome stands in `report` is the model's (log entry 1). -/
def Obligations.EveryStepReportsOneOutcome : Prop :=
  ∀ s : State, ∃ (t : State) (o : StepOutcome), step s = .next t ∧ t.report = some o

/-- There is no halted or faulted latch (spec/10_state.md R10, spec/40_engine.md R63). `report` is the model's field (log entry 1). -/
def Obligations.StepDoesNotReadTheReport : Prop :=
  ∀ (s : State) (o : Option StepOutcome), step { s with report := o } = step s

/-- The precondition of spec/40_engine.md R52. `report` is the model's field (log entry 1). -/
def Obligations.ExhaustedExactlyAtTheEnd : Prop :=
  (∀ s : State, s.progLen ≤ s.pc.toNat → step s = .next (s.setReport .exhausted)) ∧
  (∀ s : State, s.Inv → s.pc.toNat < s.progLen → ∃ t, step s = .next t ∧ t.report ≠ some .exhausted)

/-- Precise faults (spec/60_exceptions.md R97, the spec's decision D11). `report` is the model's field (log entry 1). -/
def Obligations.FaultingStepChangesOnlyPc : Prop :=
  ∀ (s t : State) (rec : FaultRecord), step s = .next t → t.report = some (.faulted rec) →
    t = s.endsAt t.pc (.faulted rec) ∧ ∀ x, t.programByteAt x = s.programByteAt x

/-- The table of spec/60_exceptions.md R90, row by row, and the record of R98 with each kind's detail (the spec's decisions D8, D11,
D13, D15). The offsets of row 5 are compared with `prog_len` where the program is the byte sequence the invariant says. -/
def Obligations.FaultRecordAndPcAreTheTables : Prop :=
  ∀ (s t : State) (rec : FaultRecord), step s = .next t → t.report = some (.faulted rec) →
    rec.site.a = s.pc ∧ s.programByteAt s.pc.toNat = some rec.site.b0 ∧
    match rec.fault with
    | .invalidOpcode => rec.code = 1 ∧ t.pc = s.pc + 1 ∧ 18 ≤ rec.site.b0.toNat
    | .registerIndexOutOfRange b off =>
      rec.code = 2 ∧ t.pc = off + 1 ∧ off ∈ [s.pc + 1, s.pc + 2, s.pc + 3] ∧
      s.programByteAt off.toNat = some b ∧ 32 ≤ b.toNat
    | .divideByZero r =>
      rec.code = 3 ∧ t.pc = s.pc + 4 ∧ rec.site.b0 = 0x04 ∧
      s.programByteAt (s.pc + 2).toNat = some (regByte r) ∧ s32 (s.readReg r) = 0
    | .negativeAllocation g =>
      rec.code = 4 ∧ t.pc = s.pc + 2 ∧ rec.site.b0 = 0x11 ∧
      (∃ r, s.programByteAt (s.pc + 1).toNat = some (regByte r) ∧ g = s32 (s.readReg r)) ∧ g < 0
    | .truncatedInstruction off =>
      rec.code = 5 ∧ t.pc = off ∧ off ∈ [s.pc + 1, s.pc + 2, s.pc + 3] ∧
      (s.programByteAt off.toNat = none ∨
        rec.site.b0 = 0x00 ∧ off = s.pc + 2 ∧ s.programByteAt (off + 1).toNat = none) ∧
      (s.Inv → off.toNat = s.progLen ∨ rec.site.b0 = 0x00 ∧ off = s.pc + 2 ∧ off.toNat + 1 = s.progLen)
    | .heapExhausted g =>
      rec.code = 6 ∧ t.pc = s.pc + 2 ∧ rec.site.b0 = 0x11 ∧
      (∃ r, s.programByteAt (s.pc + 1).toNat = some (regByte r) ∧ g = s32 (s.readReg r)) ∧
      0 ≤ g ∧ (s.params.heapCapacity : Int) < s.heapLen + g

/-- No instruction writes the program space (spec/20_memory.md R26, R35). The parameters are arguments of the model (log entry 2). -/
def Obligations.NoStepWritesProgramOrParameters : Prop :=
  ∀ s t : State, step s = .next t →
    (∀ x, t.programByteAt x = s.programByteAt x) ∧ t.program = s.program ∧ t.params = s.params

/-- spec/10_state.md R19, the writers of the flag. -/
def Obligations.OnlyComparisonsWriteEqualFlag : Prop :=
  ∀ (i : Instr) (s t : State), exec i s = .next t →
    i.opcode ∉ [Opcode.eq, .neq, .gt, .gte, .lt, .lte] → t.equalFlag = s.equalFlag

/-- spec/10_state.md R20; that no instruction reads it is an inference the spec marks as derived there. -/
def Obligations.OnlyDivWritesRemainderAndNoneReadsIt : Prop :=
  (∀ (i : Instr) (s t : State), exec i s = .next t → i.opcode ≠ .div → t.remainder = s.remainder) ∧
  (∀ (i : Instr) (s t : State) (m : Word), exec i s = .next t →
    ∃ m', exec i (s.setRemainder m) = .next (t.setRemainder m') ∧
      (i.opcode = .div ∧ t.report = some .continued → m' = t.remainder) ∧
      (¬(i.opcode = .div ∧ t.report = some .continued) → m' = m))

/-- spec/10_state.md R19, the reader of the flag. -/
def Obligations.OnlyJmpeReadsEqualFlag : Prop :=
  ∀ (i : Instr) (s t : State) (b : Bool), i.opcode ≠ .jmpe → exec i s = .next t →
    ∃ b', exec i (s.setEqualFlag b) = .next (t.setEqualFlag b') ∧
      (i.opcode ∈ [Opcode.eq, .neq, .gt, .gte, .lt, .lte] ∧ t.report = some .continued → b' = t.equalFlag) ∧
      (¬(i.opcode ∈ [Opcode.eq, .neq, .gt, .gte, .lt, .lte] ∧ t.report = some .continued) → b' = b)

/-- The write column of spec/10_state.md R13; no register is hardwired (R12). -/
def Obligations.RegisterWritesAreTheTables : Prop :=
  ∀ (i : Instr) (s t : State) (r : Reg), exec i s = .next t → t.readReg r ≠ s.readReg r →
    (∃ imm, i = .load (some (regByte r)) imm) ∨
    (∃ r1 r2, i = .add r1 r2 (some (regByte r)) ∨ i = .sub r1 r2 (some (regByte r)) ∨
      i = .mul r1 r2 (some (regByte r)) ∨ i = .div r1 r2 (some (regByte r)))

/-- The read column of spec/10_state.md R13. -/
def Obligations.NoRegisterReadByLoadHltNopIllegal : Prop :=
  ∀ (i : Instr) (s t : State) (v : Vector Word Config.regCount),
    i.opcode ∈ [Opcode.load, .hlt, .nop, .illegal] → exec i s = .next t →
    ∃ v', exec i (s.setRegs v) = .next (t.setRegs v') ∧
      (∀ (r : Reg) (imm : ImmOperand), i = .load (some (regByte r)) imm → t.report = some .continued →
        v' = v.set r.val (t.readReg r)) ∧
      (¬(i.opcode = .load ∧ t.report = some .continued) → v' = v)

/-- spec/10_state.md R21; that heap_len stands for the heap is an inference the spec marks as derived (R22; log entry 5). -/
def Obligations.HeapGrowsOnlyByAlocAndIsZero : Prop :=
  (∀ (i : Instr) (s t : State), exec i s = .next t →
    s.heapLen ≤ t.heapLen ∧
    (t.heapLen ≠ s.heapLen → ∃ r : Reg, i = .aloc (some (regByte r)) ∧
      (t.heapLen : Int) = s.heapLen + s32 (s.readReg r) ∧ t.heapLen ≤ s.params.heapCapacity)) ∧
  (∀ (s : State) (x : Nat), (x < s.heapLen → s.heapByteAt x = some 0) ∧ (s.heapLen ≤ x → s.heapByteAt x = none))

/-- spec/40_engine.md R58 and spec/60_exceptions.md R90 row 1. -/
def Obligations.HaltExactlyByHltAndInvalidOpcodeExactlyByIllegal : Prop :=
  ∀ (i : Instr) (s t : State), exec i s = .next t →
    (t.report = some .halted ↔ i.opcode = .hlt) ∧ t.report ≠ some .exhausted ∧
    ((∃ site, t.report = some (.faulted ⟨site, .invalidOpcode⟩)) ↔ i.opcode = .illegal)

/-- spec/10_state.md R17 with the lengths of spec/30_encoding.md R44. -/
def Obligations.CompletedNonJumpAdvancesByItsLength : Prop :=
  ∀ (i : Instr) (s t : State), exec i s = .next t → (∀ rec, t.report ≠ some (.faulted rec)) →
    i.opcode ∉ [Opcode.jmp, .jmpf, .jmpb] → ¬(i.opcode = .jmpe ∧ s.equalFlag = true) →
    t.pc = s.pc + BitVec.ofNat 32 (i.length s.params s.equalFlag)

/-- spec/30_encoding.md R45: no value is reserved, checked or has an effect; the padding byte must exist and the skipped bytes need not (the spec's decisions D9, D10). -/
def Obligations.PaddingAndSkippedBytesDoNotMatter : Prop :=
  (∀ (s : State) (r1 r2 : Operand) (p q : Byte),
    exec (.eq r1 r2 (some p)) s = exec (.eq r1 r2 (some q)) s ∧ exec (.neq r1 r2 (some p)) s = exec (.neq r1 r2 (some q)) s ∧
    exec (.gt r1 r2 (some p)) s = exec (.gt r1 r2 (some q)) s ∧ exec (.gte r1 r2 (some p)) s = exec (.gte r1 r2 (some q)) s ∧
    exec (.lt r1 r2 (some p)) s = exec (.lt r1 r2 (some q)) s ∧ exec (.lte r1 r2 (some p)) s = exec (.lte r1 r2 (some q)) s) ∧
  (∀ (s : State) (r1 r2 : Reg) (f : Operand → Operand → Operand → Instr), f ∈ [Instr.eq, .neq, .gt, .gte, .lt, .lte] →
    exec (f (some (regByte r1)) (some (regByte r2)) none) s = .next (s.endsAt (s.pc + 3)
      (.faulted ⟨⟨s.pc, (f none none none).opcodeByte s.params.relJumpCodes⟩, .truncatedInstruction (s.pc + 3)⟩))) ∧
  (∀ (s : State) (s1 s2 s3 : Operand), exec (.nop s1 s2 s3) s = .next (s.endsAt (s.pc + 4) .continued))

/-- The misalignment hazard, an inference the spec marks as derived (spec/70_reset_and_hazards.md R112). -/
def Obligations.JmpeFalsePathDecodesItsOperandByte : Prop :=
  ∀ (s : State) (b1 : Byte), s.programByteAt s.pc.toNat = some 0x0F → s.programByteAt (s.pc + 1).toNat = some b1 →
    s.equalFlag = false → s.params.jmpeFalseMode = .referenceNoConsume →
    step s = .next (s.endsAt (s.pc + 1) .continued) ∧
    ∃ i : Instr, i.opcode = fromByte s.params.relJumpCodes b1 ∧
      step (s.endsAt (s.pc + 1) .continued) = exec i (s.endsAt (s.pc + 1) .continued)

/-- spec/40_engine.md R60, R62. The bound on the number of steps is the model's (log entry 9). -/
def Obligations.RunStopsAtTheFirstOtherOutcome : Prop :=
  ∀ (n : Nat) (s : State),
    (∀ t, runFor n s = .ended t → ∃ k < n, (∀ j, 1 ≤ j → j ≤ k → (runOne^[j] s).report = some .continued) ∧
      t = runOne^[k + 1] s ∧ t.report ≠ some .continued) ∧
    (∀ t, runFor n s = .running t → t = runOne^[n] s ∧ ∀ j, 1 ≤ j → j ≤ n → (runOne^[j] s).report = some .continued)

/-- The last sentence of spec/30_encoding.md R41, an inference the spec marks as derived. -/
def Obligations.RelativeJumpsAgreeUnderReferenceAdd : Prop :=
  ∀ (s : State) (r : Reg), s.params.jmpbMode = .referenceAdd →
    ∃ t, exec (.jmpb (some (regByte r))) s = .next t ∧ exec (.jmpf (some (regByte r))) s = .next t

/-- spec/41_load.md R68. -/
def Obligations.LoadWritesTheImmediateZeroExtended : Prop :=
  (∀ (codes : Config.RelJumpCodes) (b1 hi lo : Byte) (bs : List Byte),
    ∃ v : Half, v.toNat = hi.toNat * 256 + lo.toNat ∧
      decode codes (0x00 :: b1 :: hi :: lo :: bs) = .ok (.load (some b1) (some v))) ∧
  (∀ (codes : Config.RelJumpCodes) (b1 hi : Byte), decode codes [0x00] = .ok (.load none none) ∧
    decode codes [0x00, b1] = .ok (.load (some b1) none) ∧ decode codes [0x00, b1, hi] = .ok (.load (some b1) none)) ∧
  (∀ (s : State) (r : Reg) (v : Half), exec (.load (some (regByte r)) (some v)) s =
    .next ((s.writeReg r (BitVec.ofNat 32 v.toNat)).endsAt (s.pc + 4) .continued)) ∧
  (∀ (s : State) (r : Operand) (imm : ImmOperand) (f : Fault) (v : Word), operandFault s.pc 1 [r] = some (f, v) →
    exec (.load r imm) s = .next (s.endsAt v (.faulted ⟨⟨s.pc, 0x00⟩, f⟩))) ∧
  (∀ (s : State) (r : Reg), exec (.load (some (regByte r)) none) s =
    .next (s.endsAt (s.pc + 2) (.faulted ⟨⟨s.pc, 0x00⟩, .truncatedInstruction (s.pc + 2)⟩)))

/-- spec/42_arith.md R70; wrapping is the spec's decision D3. -/
def Obligations.AddWritesTheWrappedSum : Prop :=
  (∀ (codes : Config.RelJumpCodes) (bs : List Byte), decode codes (0x01 :: bs) = .ok (.add bs[0]? bs[1]? bs[2]?)) ∧
  (∀ (s : State) (r1 r2 r3 : Reg), exec (.add (some (regByte r1)) (some (regByte r2)) (some (regByte r3))) s =
    .next ((s.writeReg r3 (wrap32 (s32 (s.readReg r1) + s32 (s.readReg r2)))).endsAt (s.pc + 4) .continued)) ∧
  (∀ (s : State) (r1 r2 r3 : Operand) (f : Fault) (v : Word), operandFault s.pc 1 [r1, r2, r3] = some (f, v) →
    exec (.add r1 r2 r3) s = .next (s.endsAt v (.faulted ⟨⟨s.pc, 0x01⟩, f⟩)))

/-- spec/42_arith.md R71; wrapping is the spec's decision D3. -/
def Obligations.SubWritesTheWrappedDifference : Prop :=
  (∀ (codes : Config.RelJumpCodes) (bs : List Byte), decode codes (0x02 :: bs) = .ok (.sub bs[0]? bs[1]? bs[2]?)) ∧
  (∀ (s : State) (r1 r2 r3 : Reg), exec (.sub (some (regByte r1)) (some (regByte r2)) (some (regByte r3))) s =
    .next ((s.writeReg r3 (wrap32 (s32 (s.readReg r1) - s32 (s.readReg r2)))).endsAt (s.pc + 4) .continued)) ∧
  (∀ (s : State) (r1 r2 r3 : Operand) (f : Fault) (v : Word), operandFault s.pc 1 [r1, r2, r3] = some (f, v) →
    exec (.sub r1 r2 r3) s = .next (s.endsAt v (.faulted ⟨⟨s.pc, 0x02⟩, f⟩)))

/-- spec/42_arith.md R72; wrapping is the spec's decision D3. -/
def Obligations.MulWritesTheLowProduct : Prop :=
  (∀ (codes : Config.RelJumpCodes) (bs : List Byte), decode codes (0x03 :: bs) = .ok (.mul bs[0]? bs[1]? bs[2]?)) ∧
  (∀ (s : State) (r1 r2 r3 : Reg), exec (.mul (some (regByte r1)) (some (regByte r2)) (some (regByte r3))) s =
    .next ((s.writeReg r3 (wrap32 (s32 (s.readReg r1) * s32 (s.readReg r2)))).endsAt (s.pc + 4) .continued)) ∧
  (∀ (s : State) (r1 r2 r3 : Operand) (f : Fault) (v : Word), operandFault s.pc 1 [r1, r2, r3] = some (f, v) →
    exec (.mul r1 r2 r3) s = .next (s.endsAt v (.faulted ⟨⟨s.pc, 0x03⟩, f⟩)))

/-- spec/42_arith.md R73; the overflow case and the remainder's conversion are the spec's decisions D3 and D4. -/
def Obligations.DivWritesQuotientAndRemainder : Prop :=
  (∀ (codes : Config.RelJumpCodes) (bs : List Byte), decode codes (0x04 :: bs) = .ok (.div bs[0]? bs[1]? bs[2]?)) ∧
  (∀ (s : State) (r1 r2 r3 : Reg), s32 (s.readReg r2) ≠ 0 →
    exec (.div (some (regByte r1)) (some (regByte r2)) (some (regByte r3))) s =
    .next (((s.writeReg r3 (wrap32 (Int.tdiv (s32 (s.readReg r1)) (s32 (s.readReg r2))))).setRemainder
      (wrap32 (s32 (s.readReg r1) - Int.tdiv (s32 (s.readReg r1)) (s32 (s.readReg r2)) * s32 (s.readReg r2)))).endsAt
        (s.pc + 4) .continued)) ∧
  (∀ (s : State) (r1 r2 r3 : Reg), s.readReg r1 = 0x80000000 → s.readReg r2 = 0xFFFFFFFF →
    exec (.div (some (regByte r1)) (some (regByte r2)) (some (regByte r3))) s =
    .next (((s.writeReg r3 0x80000000).setRemainder 0).endsAt (s.pc + 4) .continued)) ∧
  (∀ (s : State) (r1 r2 r3 : Reg), s32 (s.readReg r2) = 0 →
    exec (.div (some (regByte r1)) (some (regByte r2)) (some (regByte r3))) s =
    .next (s.endsAt (s.pc + 4) (.faulted ⟨⟨s.pc, 0x04⟩, .divideByZero r2⟩))) ∧
  (∀ (s : State) (r1 r2 r3 : Operand) (f : Fault) (v : Word), operandFault s.pc 1 [r1, r2, r3] = some (f, v) →
    exec (.div r1 r2 r3) s = .next (s.endsAt v (.faulted ⟨⟨s.pc, 0x04⟩, f⟩)))

/-- The identity among the corner cases of spec/42_arith.md R73. -/
def Obligations.DivIdentityHoldsModulo : Prop :=
  ∀ (s t : State) (r1 r2 r3 : Reg), s32 (s.readReg r2) ≠ 0 →
    exec (.div (some (regByte r1)) (some (regByte r2)) (some (regByte r3))) s = .next t →
    t.readReg r3 * s.readReg r2 + t.remainder = s.readReg r1 ∧
    (s32 t.remainder).natAbs < (s32 (s.readReg r2)).natAbs ∧
    (0 ≤ s32 (s.readReg r1) → 0 ≤ s32 t.remainder) ∧ (s32 (s.readReg r1) ≤ 0 → s32 t.remainder ≤ 0)

/-- spec/43_jump.md R74. -/
def Obligations.JmpLoadsTheRegisterIntoPc : Prop :=
  (∀ (codes : Config.RelJumpCodes) (bs : List Byte), decode codes (0x06 :: bs) = .ok (.jmp bs[0]?)) ∧
  (∀ (s : State) (r : Reg), exec (.jmp (some (regByte r))) s = .next (s.endsAt (s.readReg r) .continued)) ∧
  (∀ (s : State) (r : Operand) (f : Fault) (v : Word), operandFault s.pc 1 [r] = some (f, v) →
    exec (.jmp r) s = .next (s.endsAt v (.faulted ⟨⟨s.pc, 0x06⟩, f⟩)))

/-- spec/43_jump.md R75; the base a + 2 is an inference the spec marks as derived there. -/
def Obligations.JmpfAddsToThePcAfterIt : Prop :=
  (∀ bs : List Byte, decode .doc (0x08 :: bs) = .ok (.jmpf bs[0]?) ∧ decode .swapped (0x07 :: bs) = .ok (.jmpf bs[0]?)) ∧
  (∀ (s : State) (r : Reg), exec (.jmpf (some (regByte r))) s =
    .next (s.endsAt (s.pc + 2 + s.readReg r) .continued)) ∧
  (∀ (s : State) (r : Operand) (f : Fault) (v : Word), operandFault s.pc 1 [r] = some (f, v) →
    exec (.jmpf r) s = .next (s.endsAt v (.faulted ⟨⟨s.pc, Opcode.jmpf.toByte s.params.relJumpCodes⟩, f⟩)))

/-- spec/43_jump.md R76; the two modes are the spec's decision D6. -/
def Obligations.JmpbFollowsItsMode : Prop :=
  (∀ bs : List Byte, decode .doc (0x07 :: bs) = .ok (.jmpb bs[0]?) ∧ decode .swapped (0x08 :: bs) = .ok (.jmpb bs[0]?)) ∧
  (∀ (s : State) (r : Reg), s.params.jmpbMode = .referenceAdd →
    exec (.jmpb (some (regByte r))) s = .next (s.endsAt (s.pc + 2 + s.readReg r) .continued)) ∧
  (∀ (s : State) (r : Reg), s.params.jmpbMode = .correctedSubtract →
    exec (.jmpb (some (regByte r))) s = .next (s.endsAt (s.pc + 2 - s.readReg r) .continued)) ∧
  (∀ (s : State) (r : Operand) (f : Fault) (v : Word), operandFault s.pc 1 [r] = some (f, v) →
    exec (.jmpb r) s = .next (s.endsAt v (.faulted ⟨⟨s.pc, Opcode.jmpb.toByte s.params.relJumpCodes⟩, f⟩)))

/-- spec/44_compare.md R78 with R77. -/
def Obligations.EqSetsFlagOnEquality : Prop :=
  (∀ (codes : Config.RelJumpCodes) (bs : List Byte), decode codes (0x09 :: bs) = .ok (.eq bs[0]? bs[1]? bs[2]?)) ∧
  (∀ (s : State) (r1 r2 : Reg) (p : Byte), ∃ flag : Bool, (flag = true ↔ s32 (s.readReg r1) = s32 (s.readReg r2)) ∧
    exec (.eq (some (regByte r1)) (some (regByte r2)) (some p)) s = .next ((s.setEqualFlag flag).endsAt (s.pc + 4) .continued)) ∧
  (∀ (s : State) (r1 r2 p : Operand) (f : Fault) (v : Word), operandFault s.pc 1 [r1, r2] = some (f, v) →
    exec (.eq r1 r2 p) s = .next (s.endsAt v (.faulted ⟨⟨s.pc, 0x09⟩, f⟩))) ∧
  (∀ (s : State) (r1 r2 : Reg), exec (.eq (some (regByte r1)) (some (regByte r2)) none) s =
    .next (s.endsAt (s.pc + 3) (.faulted ⟨⟨s.pc, 0x09⟩, .truncatedInstruction (s.pc + 3)⟩)))

/-- spec/44_compare.md R79 with R77. -/
def Obligations.NeqSetsFlagOnInequality : Prop :=
  (∀ (codes : Config.RelJumpCodes) (bs : List Byte), decode codes (0x0A :: bs) = .ok (.neq bs[0]? bs[1]? bs[2]?)) ∧
  (∀ (s : State) (r1 r2 : Reg) (p : Byte), ∃ flag : Bool, (flag = true ↔ s32 (s.readReg r1) ≠ s32 (s.readReg r2)) ∧
    exec (.neq (some (regByte r1)) (some (regByte r2)) (some p)) s = .next ((s.setEqualFlag flag).endsAt (s.pc + 4) .continued)) ∧
  (∀ (s : State) (r1 r2 p : Operand) (f : Fault) (v : Word), operandFault s.pc 1 [r1, r2] = some (f, v) →
    exec (.neq r1 r2 p) s = .next (s.endsAt v (.faulted ⟨⟨s.pc, 0x0A⟩, f⟩))) ∧
  (∀ (s : State) (r1 r2 : Reg), exec (.neq (some (regByte r1)) (some (regByte r2)) none) s =
    .next (s.endsAt (s.pc + 3) (.faulted ⟨⟨s.pc, 0x0A⟩, .truncatedInstruction (s.pc + 3)⟩)))

/-- spec/44_compare.md R80 with R77. -/
def Obligations.GtSetsFlagOnSignedGreater : Prop :=
  (∀ (codes : Config.RelJumpCodes) (bs : List Byte), decode codes (0x0E :: bs) = .ok (.gt bs[0]? bs[1]? bs[2]?)) ∧
  (∀ (s : State) (r1 r2 : Reg) (p : Byte), ∃ flag : Bool, (flag = true ↔ s32 (s.readReg r1) > s32 (s.readReg r2)) ∧
    exec (.gt (some (regByte r1)) (some (regByte r2)) (some p)) s = .next ((s.setEqualFlag flag).endsAt (s.pc + 4) .continued)) ∧
  (∀ (s : State) (r1 r2 p : Operand) (f : Fault) (v : Word), operandFault s.pc 1 [r1, r2] = some (f, v) →
    exec (.gt r1 r2 p) s = .next (s.endsAt v (.faulted ⟨⟨s.pc, 0x0E⟩, f⟩))) ∧
  (∀ (s : State) (r1 r2 : Reg), exec (.gt (some (regByte r1)) (some (regByte r2)) none) s =
    .next (s.endsAt (s.pc + 3) (.faulted ⟨⟨s.pc, 0x0E⟩, .truncatedInstruction (s.pc + 3)⟩)))

/-- spec/44_compare.md R81 with R77. -/
def Obligations.GteSetsFlagOnSignedGreaterOrEqual : Prop :=
  (∀ (codes : Config.RelJumpCodes) (bs : List Byte), decode codes (0x0B :: bs) = .ok (.gte bs[0]? bs[1]? bs[2]?)) ∧
  (∀ (s : State) (r1 r2 : Reg) (p : Byte), ∃ flag : Bool, (flag = true ↔ s32 (s.readReg r1) ≥ s32 (s.readReg r2)) ∧
    exec (.gte (some (regByte r1)) (some (regByte r2)) (some p)) s = .next ((s.setEqualFlag flag).endsAt (s.pc + 4) .continued)) ∧
  (∀ (s : State) (r1 r2 p : Operand) (f : Fault) (v : Word), operandFault s.pc 1 [r1, r2] = some (f, v) →
    exec (.gte r1 r2 p) s = .next (s.endsAt v (.faulted ⟨⟨s.pc, 0x0B⟩, f⟩))) ∧
  (∀ (s : State) (r1 r2 : Reg), exec (.gte (some (regByte r1)) (some (regByte r2)) none) s =
    .next (s.endsAt (s.pc + 3) (.faulted ⟨⟨s.pc, 0x0B⟩, .truncatedInstruction (s.pc + 3)⟩)))

/-- spec/44_compare.md R82 with R77. -/
def Obligations.LtSetsFlagOnSignedLess : Prop :=
  (∀ (codes : Config.RelJumpCodes) (bs : List Byte), decode codes (0x0D :: bs) = .ok (.lt bs[0]? bs[1]? bs[2]?)) ∧
  (∀ (s : State) (r1 r2 : Reg) (p : Byte), ∃ flag : Bool, (flag = true ↔ s32 (s.readReg r1) < s32 (s.readReg r2)) ∧
    exec (.lt (some (regByte r1)) (some (regByte r2)) (some p)) s = .next ((s.setEqualFlag flag).endsAt (s.pc + 4) .continued)) ∧
  (∀ (s : State) (r1 r2 p : Operand) (f : Fault) (v : Word), operandFault s.pc 1 [r1, r2] = some (f, v) →
    exec (.lt r1 r2 p) s = .next (s.endsAt v (.faulted ⟨⟨s.pc, 0x0D⟩, f⟩))) ∧
  (∀ (s : State) (r1 r2 : Reg), exec (.lt (some (regByte r1)) (some (regByte r2)) none) s =
    .next (s.endsAt (s.pc + 3) (.faulted ⟨⟨s.pc, 0x0D⟩, .truncatedInstruction (s.pc + 3)⟩)))

/-- spec/44_compare.md R83 with R77. -/
def Obligations.LteSetsFlagOnSignedLessOrEqual : Prop :=
  (∀ (codes : Config.RelJumpCodes) (bs : List Byte), decode codes (0x0C :: bs) = .ok (.lte bs[0]? bs[1]? bs[2]?)) ∧
  (∀ (s : State) (r1 r2 : Reg) (p : Byte), ∃ flag : Bool, (flag = true ↔ s32 (s.readReg r1) ≤ s32 (s.readReg r2)) ∧
    exec (.lte (some (regByte r1)) (some (regByte r2)) (some p)) s = .next ((s.setEqualFlag flag).endsAt (s.pc + 4) .continued)) ∧
  (∀ (s : State) (r1 r2 p : Operand) (f : Fault) (v : Word), operandFault s.pc 1 [r1, r2] = some (f, v) →
    exec (.lte r1 r2 p) s = .next (s.endsAt v (.faulted ⟨⟨s.pc, 0x0C⟩, f⟩))) ∧
  (∀ (s : State) (r1 r2 : Reg), exec (.lte (some (regByte r1)) (some (regByte r2)) none) s =
    .next (s.endsAt (s.pc + 3) (.faulted ⟨⟨s.pc, 0x0C⟩, .truncatedInstruction (s.pc + 3)⟩)))

/-- spec/44_compare.md R84; the two modes are the spec's decision D7. -/
def Obligations.JmpeFollowsFlagAndMode : Prop :=
  (∀ (codes : Config.RelJumpCodes) (bs : List Byte), decode codes (0x0F :: bs) = .ok (.jmpe bs[0]?)) ∧
  (∀ (s : State) (r : Reg), s.equalFlag = true → exec (.jmpe (some (regByte r))) s = .next (s.endsAt (s.readReg r) .continued)) ∧
  (∀ (s : State) (r : Operand), s.equalFlag = false → s.params.jmpeFalseMode = .referenceNoConsume →
    exec (.jmpe r) s = .next (s.endsAt (s.pc + 1) .continued)) ∧
  (∀ (s : State) (r : Reg), s.equalFlag = false → s.params.jmpeFalseMode = .correctedConsume →
    exec (.jmpe (some (regByte r))) s = .next (s.endsAt (s.pc + 2) .continued)) ∧
  (∀ (s : State) (r : Operand) (f : Fault) (v : Word), s.equalFlag = true ∨ s.params.jmpeFalseMode = .correctedConsume →
    operandFault s.pc 1 [r] = some (f, v) →
    exec (.jmpe r) s = .next (s.endsAt v (.faulted ⟨⟨s.pc, 0x0F⟩, f⟩)))

/-- spec/45_control.md R85. -/
def Obligations.HltHaltsAfterItsByte : Prop :=
  (∀ (codes : Config.RelJumpCodes) (bs : List Byte), decode codes (0x05 :: bs) = .ok .hlt) ∧
  (∀ s : State, exec .hlt s = .next (s.endsAt (s.pc + 1) .halted))

/-- spec/45_control.md R86. -/
def Obligations.NopAdvancesFourBytes : Prop :=
  (∀ (codes : Config.RelJumpCodes) (bs : List Byte), decode codes (0x10 :: bs) = .ok (.nop bs[0]? bs[1]? bs[2]?)) ∧
  (∀ (s : State) (s1 s2 s3 : Operand), exec (.nop s1 s2 s3) s = .next (s.endsAt (s.pc + 4) .continued))

/-- spec/45_control.md R87. -/
def Obligations.IllegalRaisesInvalidOpcode : Prop :=
  (∀ (codes : Config.RelJumpCodes) (b0 : Byte) (bs : List Byte), 0x12 ≤ b0.toNat → decode codes (b0 :: bs) = .ok (.illegal b0)) ∧
  (∀ (s : State) (b0 : Byte), exec (.illegal b0) s =
    .next (s.endsAt (s.pc + 1) (.faulted ⟨⟨s.pc, b0⟩, .invalidOpcode⟩))) ∧
  FaultKind.invalidOpcode.code = 1

/-- spec/46_heap.md R88; the capacity is the spec's decision D15. -/
def Obligations.AlocGrowsTheHeapOrFaults : Prop :=
  (∀ (codes : Config.RelJumpCodes) (bs : List Byte), decode codes (0x11 :: bs) = .ok (.aloc bs[0]?)) ∧
  (∀ (s : State) (r : Reg) (g : Nat), s32 (s.readReg r) = g → s.heapLen + g ≤ s.params.heapCapacity →
    exec (.aloc (some (regByte r))) s = .next ((s.setHeapLen (s.heapLen + g)).endsAt (s.pc + 2) .continued) ∧
    ∀ x < s.heapLen + g, ((s.setHeapLen (s.heapLen + g)).endsAt (s.pc + 2) .continued).heapByteAt x = some 0) ∧
  (∀ (s : State) (r : Reg), s32 (s.readReg r) < 0 →
    exec (.aloc (some (regByte r))) s =
      .next (s.endsAt (s.pc + 2) (.faulted ⟨⟨s.pc, 0x11⟩, .negativeAllocation (s32 (s.readReg r))⟩))) ∧
  (∀ (s : State) (r : Reg), 0 ≤ s32 (s.readReg r) → (s.params.heapCapacity : Int) < s.heapLen + s32 (s.readReg r) →
    exec (.aloc (some (regByte r))) s =
      .next (s.endsAt (s.pc + 2) (.faulted ⟨⟨s.pc, 0x11⟩, .heapExhausted (s32 (s.readReg r))⟩))) ∧
  (∀ (s : State) (r : Operand) (f : Fault) (v : Word), operandFault s.pc 1 [r] = some (f, v) →
    exec (.aloc r) s = .next (s.endsAt v (.faulted ⟨⟨s.pc, 0x11⟩, f⟩)))

/-- The first operand byte of spec/60_exceptions.md R95, tied to `prog_len` (the spec's decision D8). `report` is the model's
field (log entry 1). -/
def Obligations.MissingFirstOperandIsTruncation : Prop :=
  ∀ (s : State) (b0 : Byte), s.Inv → s.programByteAt s.pc.toNat = some b0 → s.progLen = s.pc.toNat + 1 →
    fromByte s.params.relJumpCodes b0 ∉ [Opcode.hlt, .nop, .illegal] →
    (fromByte s.params.relJumpCodes b0 = .jmpe → s.equalFlag = true ∨ s.params.jmpeFalseMode = .correctedConsume) →
    step s = .next (s.endsAt (s.pc + 1) (.faulted ⟨⟨s.pc, b0⟩, .truncatedInstruction (s.pc + 1)⟩))

/-- `Halt` and `Exhausted` are the normal endings (spec/40_engine.md R58, R60). `report` and the bound are the model's (log
entries 1 and 9). -/
def Obligations.SafeRunEndsNormally : Prop :=
  ∀ (n : Nat) (s t : State), SafeFor n s → runFor n s = .ended t →
    t.report = some .halted ∨ t.report = some .exhausted
end

