-- ==== Sys2Proof/Laws/Decode.lean ====
section
/-! SUPPORT. The opcode table's small lemmas and the decoder's equation for each opcode byte. -/

namespace Sys2Proof

open Config (RelJumpCodes)

/-- Codes 0 to 17 are the named opcodes and no other byte is (spec/30_encoding.md R41, R42). -/
theorem fromByte_of_le (codes : RelJumpCodes) (b : Byte) (h : 18 ≤ b.toNat) : fromByte codes b = .illegal := by
  unfold fromByte
  split <;> first | omega | rfl

@[simp] theorem decode_nil (codes : RelJumpCodes) : decode codes [] = .error .noInstruction := rfl

/-- The decoder answers an instruction for every list with an opcode byte. -/
theorem decode_cons_ok (codes : RelJumpCodes) (b0 : Byte) (bs : List Byte) : ∃ i, decode codes (b0 :: bs) = .ok i := ⟨_, rfl⟩

/-- The instruction read has the opcode of the opcode byte (spec/30_encoding.md R41). -/
theorem decode_cons_opcode (codes : RelJumpCodes) (b0 : Byte) (bs : List Byte) (i : Instr)
    (h : decode codes (b0 :: bs) = .ok i) : i.opcode = fromByte codes b0 := by
  simp only [decode, Except.ok.injEq] at h
  subst h
  split <;> simp_all [Instr.opcode]

@[simp] theorem Instr.opcodeByte_illegal (codes : RelJumpCodes) (b0 : Byte) : (Instr.illegal b0).opcodeByte codes = b0 := rfl

/-- An immediate's two bytes assemble to it again (spec/30_encoding.md R40). -/
theorem bigEndian16_bytes (v : Half) : bigEndian16 (v.extractLsb' 8 8) (v.extractLsb' 0 8) = v := by
  unfold bigEndian16
  ext j hj
  simp only [BitVec.getElem_append, BitVec.getElem_extractLsb']
  split
  · simp only [Nat.zero_add]
    exact BitVec.getLsbD_eq_getElem _
  · have e : 8 + (j - 8) = j := by omega
    rw [e]
    exact BitVec.getLsbD_eq_getElem _

end Sys2Proof
end

