-- ==== Sys2Proof/Laws/State.lean ====
section
/-! SUPPORT. What each update of the state leaves in each field, and what two updates in a row come to. -/

namespace Sys2Proof.Machine

variable (s : State)

@[simp] theorem State.setRegs_regs (v : Vector Word Config.regCount) : (s.setRegs v).regs = v := rfl
@[simp] theorem State.setRegs_pc (v : Vector Word Config.regCount) : (s.setRegs v).pc = s.pc := rfl
@[simp] theorem State.setRegs_equalFlag (v : Vector Word Config.regCount) : (s.setRegs v).equalFlag = s.equalFlag := rfl
@[simp] theorem State.setRegs_remainder (v : Vector Word Config.regCount) : (s.setRegs v).remainder = s.remainder := rfl
@[simp] theorem State.setRegs_heapLen (v : Vector Word Config.regCount) : (s.setRegs v).heapLen = s.heapLen := rfl
@[simp] theorem State.setRegs_program (v : Vector Word Config.regCount) : (s.setRegs v).program = s.program := rfl
@[simp] theorem State.setRegs_params (v : Vector Word Config.regCount) : (s.setRegs v).params = s.params := rfl
@[simp] theorem State.setRegs_report (v : Vector Word Config.regCount) : (s.setRegs v).report = s.report := rfl
@[simp] theorem State.setRegs_setRegs (v w : Vector Word Config.regCount) : (s.setRegs v).setRegs w = s.setRegs w := rfl

@[simp] theorem State.setPc_regs (v : Word) : (s.setPc v).regs = s.regs := rfl
@[simp] theorem State.setPc_pc (v : Word) : (s.setPc v).pc = v := rfl
@[simp] theorem State.setPc_equalFlag (v : Word) : (s.setPc v).equalFlag = s.equalFlag := rfl
@[simp] theorem State.setPc_remainder (v : Word) : (s.setPc v).remainder = s.remainder := rfl
@[simp] theorem State.setPc_heapLen (v : Word) : (s.setPc v).heapLen = s.heapLen := rfl
@[simp] theorem State.setPc_program (v : Word) : (s.setPc v).program = s.program := rfl
@[simp] theorem State.setPc_params (v : Word) : (s.setPc v).params = s.params := rfl
@[simp] theorem State.setPc_report (v : Word) : (s.setPc v).report = s.report := rfl
@[simp] theorem State.setPc_setPc (v w : Word) : (s.setPc v).setPc w = s.setPc w := rfl

@[simp] theorem State.setEqualFlag_regs (v : Bool) : (s.setEqualFlag v).regs = s.regs := rfl
@[simp] theorem State.setEqualFlag_pc (v : Bool) : (s.setEqualFlag v).pc = s.pc := rfl
@[simp] theorem State.setEqualFlag_equalFlag (v : Bool) : (s.setEqualFlag v).equalFlag = v := rfl
@[simp] theorem State.setEqualFlag_remainder (v : Bool) : (s.setEqualFlag v).remainder = s.remainder := rfl
@[simp] theorem State.setEqualFlag_heapLen (v : Bool) : (s.setEqualFlag v).heapLen = s.heapLen := rfl
@[simp] theorem State.setEqualFlag_program (v : Bool) : (s.setEqualFlag v).program = s.program := rfl
@[simp] theorem State.setEqualFlag_params (v : Bool) : (s.setEqualFlag v).params = s.params := rfl
@[simp] theorem State.setEqualFlag_report (v : Bool) : (s.setEqualFlag v).report = s.report := rfl
@[simp] theorem State.setEqualFlag_setEqualFlag (v w : Bool) : (s.setEqualFlag v).setEqualFlag w = s.setEqualFlag w := rfl

@[simp] theorem State.setRemainder_regs (v : Word) : (s.setRemainder v).regs = s.regs := rfl
@[simp] theorem State.setRemainder_pc (v : Word) : (s.setRemainder v).pc = s.pc := rfl
@[simp] theorem State.setRemainder_equalFlag (v : Word) : (s.setRemainder v).equalFlag = s.equalFlag := rfl
@[simp] theorem State.setRemainder_remainder (v : Word) : (s.setRemainder v).remainder = v := rfl
@[simp] theorem State.setRemainder_heapLen (v : Word) : (s.setRemainder v).heapLen = s.heapLen := rfl
@[simp] theorem State.setRemainder_program (v : Word) : (s.setRemainder v).program = s.program := rfl
@[simp] theorem State.setRemainder_params (v : Word) : (s.setRemainder v).params = s.params := rfl
@[simp] theorem State.setRemainder_report (v : Word) : (s.setRemainder v).report = s.report := rfl
@[simp] theorem State.setRemainder_setRemainder (v w : Word) : (s.setRemainder v).setRemainder w = s.setRemainder w := rfl

@[simp] theorem State.setHeapLen_regs (v : Nat) : (s.setHeapLen v).regs = s.regs := rfl
@[simp] theorem State.setHeapLen_pc (v : Nat) : (s.setHeapLen v).pc = s.pc := rfl
@[simp] theorem State.setHeapLen_equalFlag (v : Nat) : (s.setHeapLen v).equalFlag = s.equalFlag := rfl
@[simp] theorem State.setHeapLen_remainder (v : Nat) : (s.setHeapLen v).remainder = s.remainder := rfl
@[simp] theorem State.setHeapLen_heapLen (v : Nat) : (s.setHeapLen v).heapLen = v := rfl
@[simp] theorem State.setHeapLen_program (v : Nat) : (s.setHeapLen v).program = s.program := rfl
@[simp] theorem State.setHeapLen_params (v : Nat) : (s.setHeapLen v).params = s.params := rfl
@[simp] theorem State.setHeapLen_report (v : Nat) : (s.setHeapLen v).report = s.report := rfl
@[simp] theorem State.setHeapLen_setHeapLen (v w : Nat) : (s.setHeapLen v).setHeapLen w = s.setHeapLen w := rfl

@[simp] theorem State.setProgram_regs (v : Memory) : (s.setProgram v).regs = s.regs := rfl
@[simp] theorem State.setProgram_pc (v : Memory) : (s.setProgram v).pc = s.pc := rfl
@[simp] theorem State.setProgram_equalFlag (v : Memory) : (s.setProgram v).equalFlag = s.equalFlag := rfl
@[simp] theorem State.setProgram_remainder (v : Memory) : (s.setProgram v).remainder = s.remainder := rfl
@[simp] theorem State.setProgram_heapLen (v : Memory) : (s.setProgram v).heapLen = s.heapLen := rfl
@[simp] theorem State.setProgram_program (v : Memory) : (s.setProgram v).program = v := rfl
@[simp] theorem State.setProgram_params (v : Memory) : (s.setProgram v).params = s.params := rfl
@[simp] theorem State.setProgram_report (v : Memory) : (s.setProgram v).report = s.report := rfl
@[simp] theorem State.setProgram_setProgram (v w : Memory) : (s.setProgram v).setProgram w = s.setProgram w := rfl

@[simp] theorem State.setReport_regs (v : StepOutcome) : (s.setReport v).regs = s.regs := rfl
@[simp] theorem State.setReport_pc (v : StepOutcome) : (s.setReport v).pc = s.pc := rfl
@[simp] theorem State.setReport_equalFlag (v : StepOutcome) : (s.setReport v).equalFlag = s.equalFlag := rfl
@[simp] theorem State.setReport_remainder (v : StepOutcome) : (s.setReport v).remainder = s.remainder := rfl
@[simp] theorem State.setReport_heapLen (v : StepOutcome) : (s.setReport v).heapLen = s.heapLen := rfl
@[simp] theorem State.setReport_program (v : StepOutcome) : (s.setReport v).program = s.program := rfl
@[simp] theorem State.setReport_params (v : StepOutcome) : (s.setReport v).params = s.params := rfl
@[simp] theorem State.setReport_report (v : StepOutcome) : (s.setReport v).report = some v := rfl
@[simp] theorem State.setReport_setReport (v w : StepOutcome) : (s.setReport v).setReport w = s.setReport w := rfl

/-! Updates of different fields commute: the later field of `regs, pc, equalFlag, remainder, heapLen, program, report` is put on the outside. -/

theorem State.setPc_setRegs_comm (v : Word) (w : Vector Word Config.regCount) : (s.setPc v).setRegs w = (s.setRegs w).setPc v := rfl
theorem State.setEqualFlag_setRegs_comm (v : Bool) (w : Vector Word Config.regCount) : (s.setEqualFlag v).setRegs w = (s.setRegs w).setEqualFlag v := rfl
theorem State.setRemainder_setRegs_comm (v : Word) (w : Vector Word Config.regCount) : (s.setRemainder v).setRegs w = (s.setRegs w).setRemainder v := rfl
theorem State.setHeapLen_setRegs_comm (v : Nat) (w : Vector Word Config.regCount) : (s.setHeapLen v).setRegs w = (s.setRegs w).setHeapLen v := rfl
theorem State.setProgram_setRegs_comm (v : Memory) (w : Vector Word Config.regCount) : (s.setProgram v).setRegs w = (s.setRegs w).setProgram v := rfl
theorem State.setReport_setRegs_comm (v : StepOutcome) (w : Vector Word Config.regCount) : (s.setReport v).setRegs w = (s.setRegs w).setReport v := rfl
theorem State.setEqualFlag_setPc_comm (v : Bool) (w : Word) : (s.setEqualFlag v).setPc w = (s.setPc w).setEqualFlag v := rfl
theorem State.setRemainder_setPc_comm (v : Word) (w : Word) : (s.setRemainder v).setPc w = (s.setPc w).setRemainder v := rfl
theorem State.setHeapLen_setPc_comm (v : Nat) (w : Word) : (s.setHeapLen v).setPc w = (s.setPc w).setHeapLen v := rfl
theorem State.setProgram_setPc_comm (v : Memory) (w : Word) : (s.setProgram v).setPc w = (s.setPc w).setProgram v := rfl
theorem State.setReport_setPc_comm (v : StepOutcome) (w : Word) : (s.setReport v).setPc w = (s.setPc w).setReport v := rfl
theorem State.setRemainder_setEqualFlag_comm (v : Word) (w : Bool) : (s.setRemainder v).setEqualFlag w = (s.setEqualFlag w).setRemainder v := rfl
theorem State.setHeapLen_setEqualFlag_comm (v : Nat) (w : Bool) : (s.setHeapLen v).setEqualFlag w = (s.setEqualFlag w).setHeapLen v := rfl
theorem State.setProgram_setEqualFlag_comm (v : Memory) (w : Bool) : (s.setProgram v).setEqualFlag w = (s.setEqualFlag w).setProgram v := rfl
theorem State.setReport_setEqualFlag_comm (v : StepOutcome) (w : Bool) : (s.setReport v).setEqualFlag w = (s.setEqualFlag w).setReport v := rfl
theorem State.setHeapLen_setRemainder_comm (v : Nat) (w : Word) : (s.setHeapLen v).setRemainder w = (s.setRemainder w).setHeapLen v := rfl
theorem State.setProgram_setRemainder_comm (v : Memory) (w : Word) : (s.setProgram v).setRemainder w = (s.setRemainder w).setProgram v := rfl
theorem State.setReport_setRemainder_comm (v : StepOutcome) (w : Word) : (s.setReport v).setRemainder w = (s.setRemainder w).setReport v := rfl
theorem State.setProgram_setHeapLen_comm (v : Memory) (w : Nat) : (s.setProgram v).setHeapLen w = (s.setHeapLen w).setProgram v := rfl
theorem State.setReport_setHeapLen_comm (v : StepOutcome) (w : Nat) : (s.setReport v).setHeapLen w = (s.setHeapLen w).setReport v := rfl
theorem State.setReport_setProgram_comm (v : StepOutcome) (w : Memory) : (s.setReport v).setProgram w = (s.setProgram w).setReport v := rfl

/-! Named operations that update one field. -/

@[simp] theorem State.opcodeFetched_regs : (s.opcodeFetched).regs = s.regs := rfl
@[simp] theorem State.opcodeFetched_pc : (s.opcodeFetched).pc = s.pc + 1 := rfl
@[simp] theorem State.opcodeFetched_equalFlag : (s.opcodeFetched).equalFlag = s.equalFlag := rfl
@[simp] theorem State.opcodeFetched_remainder : (s.opcodeFetched).remainder = s.remainder := rfl
@[simp] theorem State.opcodeFetched_heapLen : (s.opcodeFetched).heapLen = s.heapLen := rfl
@[simp] theorem State.opcodeFetched_program : (s.opcodeFetched).program = s.program := rfl
@[simp] theorem State.opcodeFetched_params : (s.opcodeFetched).params = s.params := rfl
@[simp] theorem State.opcodeFetched_report : (s.opcodeFetched).report = s.report := rfl

@[simp] theorem State.writeReg_regs (i : Reg) (v : Word) : (s.writeReg i v).regs = s.regs.set i.val v := rfl
@[simp] theorem State.writeReg_pc (i : Reg) (v : Word) : (s.writeReg i v).pc = s.pc := rfl
@[simp] theorem State.writeReg_equalFlag (i : Reg) (v : Word) : (s.writeReg i v).equalFlag = s.equalFlag := rfl
@[simp] theorem State.writeReg_remainder (i : Reg) (v : Word) : (s.writeReg i v).remainder = s.remainder := rfl
@[simp] theorem State.writeReg_heapLen (i : Reg) (v : Word) : (s.writeReg i v).heapLen = s.heapLen := rfl
@[simp] theorem State.writeReg_program (i : Reg) (v : Word) : (s.writeReg i v).program = s.program := rfl
@[simp] theorem State.writeReg_params (i : Reg) (v : Word) : (s.writeReg i v).params = s.params := rfl
@[simp] theorem State.writeReg_report (i : Reg) (v : Word) : (s.writeReg i v).report = s.report := rfl

@[simp] theorem State.heapGrow_regs (n : Nat) : (s.heapGrow n).regs = s.regs := rfl
@[simp] theorem State.heapGrow_pc (n : Nat) : (s.heapGrow n).pc = s.pc := rfl
@[simp] theorem State.heapGrow_equalFlag (n : Nat) : (s.heapGrow n).equalFlag = s.equalFlag := rfl
@[simp] theorem State.heapGrow_remainder (n : Nat) : (s.heapGrow n).remainder = s.remainder := rfl
@[simp] theorem State.heapGrow_heapLen (n : Nat) : (s.heapGrow n).heapLen = s.heapLen + n := rfl
@[simp] theorem State.heapGrow_program (n : Nat) : (s.heapGrow n).program = s.program := rfl
@[simp] theorem State.heapGrow_params (n : Nat) : (s.heapGrow n).params = s.params := rfl
@[simp] theorem State.heapGrow_report (n : Nat) : (s.heapGrow n).report = s.report := rfl

@[simp] theorem State.resetWith_regs (p : Config.Params) : (State.resetWith p).regs = Vector.replicate Config.regCount 0 := rfl
@[simp] theorem State.resetWith_pc (p : Config.Params) : (State.resetWith p).pc = 0 := rfl
@[simp] theorem State.resetWith_equalFlag (p : Config.Params) : (State.resetWith p).equalFlag = false := rfl
@[simp] theorem State.resetWith_remainder (p : Config.Params) : (State.resetWith p).remainder = 0 := rfl
@[simp] theorem State.resetWith_heapLen (p : Config.Params) : (State.resetWith p).heapLen = 0 := rfl
@[simp] theorem State.resetWith_program (p : Config.Params) : (State.resetWith p).program = [] := rfl
@[simp] theorem State.resetWith_params (p : Config.Params) : (State.resetWith p).params = p := rfl
@[simp] theorem State.resetWith_report (p : Config.Params) : (State.resetWith p).report = none := rfl

/-- Two states with equal fields are equal. -/
theorem State.eq_of_fields (t : State) (h1 : s.regs = t.regs) (h2 : s.pc = t.pc) (h3 : s.equalFlag = t.equalFlag)
    (h4 : s.remainder = t.remainder) (h5 : s.heapLen = t.heapLen) (h6 : s.program = t.program) (h7 : s.params = t.params)
    (h8 : s.report = t.report) : s = t := by
  cases s; cases t; simp_all

end Sys2Proof.Machine
end

