-- ==== Sys2Proof/Laws/Ops.lean ====
section
/-! SUPPORT. What the operations of Machine/Ops.lean do: reading and writing program bytes, the canonical form, registers, the
ends of a step. -/

namespace Sys2Proof.Machine

/-! ### Program space -/

@[simp] theorem Memory.byteAt_nil (x : Nat) : Memory.byteAt [] x = none := rfl

@[simp] theorem Memory.extent_nil : Memory.extent [] = 0 := rfl

/-- Read after write: the byte written at its own offset, every other offset as before. -/
theorem Memory.byteAt_write (m : Memory) (x : Nat) (v : Byte) (y : Nat) :
    (m.write x v).byteAt y = if x = y then some v else m.byteAt y := by
  induction m with
  | nil => simp [Memory.write, Memory.byteAt]
  | cons c m ih =>
    obtain ⟨a, b⟩ := c
    by_cases h1 : x < a
    · simp [Memory.write, h1, Memory.byteAt]
    · by_cases h2 : x = a
      · subst h2
        by_cases h3 : x = y <;> simp [Memory.write, Memory.byteAt, h3]
      · simp only [Memory.write, h1, h2, if_false, Memory.byteAt, ih]
        by_cases h3 : a = y
        · have : x ≠ y := by omega
          simp [h3, this]
        · simp [h3]

/-- Nothing is listed at or beyond the extent (spec/20_memory.md R31). -/
theorem Memory.byteAt_eq_none_of_extent_le (m : Memory) (x : Nat) (h : m.extent ≤ x) : m.byteAt x = none := by
  induction m with
  | nil => rfl
  | cons c m ih =>
    obtain ⟨a, b⟩ := c
    simp only [Memory.extent] at h
    have : a ≠ x := by omega
    simp [Memory.byteAt, this, ih (by omega)]

theorem Memory.fst_lt_extent (m : Memory) (c : Host.Cell) (h : c ∈ m) : c.1 < m.extent := by
  induction m with
  | nil => simp at h
  | cons d m ih =>
    obtain ⟨a, b⟩ := d
    simp only [Memory.extent]
    rcases List.mem_cons.mp h with rfl | h
    · simp only; omega
    · have := ih h
      omega

/-- A write at the extent adds one cell at the end. -/
theorem Memory.write_of_fst_lt (m : Memory) (x : Nat) (v : Byte) (h : ∀ c ∈ m, c.1 < x) : m.write x v = m ++ [(x, v)] := by
  induction m with
  | nil => rfl
  | cons c m ih =>
    obtain ⟨a, b⟩ := c
    have h0 : a < x := h (a, b) (by simp)
    simp [Memory.write, show ¬ x < a by omega, show ¬ x = a by omega, ih fun c hc => h c (by simp [hc])]

theorem Memory.write_extent (m : Memory) (v : Byte) : m.write m.extent v = m ++ [(m.extent, v)] :=
  Memory.write_of_fst_lt m _ v (Memory.fst_lt_extent m)

@[simp] theorem Memory.extent_append_singleton (m : Memory) (x : Nat) (v : Byte) :
    Memory.extent (m ++ [(x, v)]) = max m.extent (x + 1) := by
  induction m with
  | nil => simp [Memory.extent]
  | cons c m ih =>
    obtain ⟨a, b⟩ := c
    simp only [List.cons_append, Memory.extent, ih]
    omega

/-- Every cell a write leaves is the new one or an old one. -/
theorem Memory.mem_write (m : Memory) (x : Nat) (v : Byte) (c : Host.Cell) (h : c ∈ m.write x v) : c = (x, v) ∨ c ∈ m := by
  induction m with
  | nil => simpa [Memory.write] using h
  | cons d m ih =>
    obtain ⟨a, b⟩ := d
    simp only [Memory.write] at h
    split at h
    · simpa using h
    · split at h
      · rcases List.mem_cons.mp h with h | h
        · exact .inl h
        · exact .inr (by simp [h])
      · rcases List.mem_cons.mp h with h | h
        · exact .inr (by simp [h])
        · rcases ih h with h | h
          · exact .inl h
          · exact .inr (by simp [h])

/-- A write keeps the canonical form. -/
theorem Memory.write_wf (m : Memory) (x : Nat) (v : Byte) (h : m.wf) : (m.write x v).wf := by
  induction m with
  | nil => simp [Memory.write, Memory.wf]
  | cons c m ih =>
    obtain ⟨a, b⟩ := c
    simp only [Memory.wf, List.pairwise_cons] at h ⊢
    simp only [Memory.write]
    split
    · rename_i hx
      refine List.pairwise_cons.mpr ⟨fun d hd => ?_, List.pairwise_cons.mpr ⟨h.1, h.2⟩⟩
      rcases List.mem_cons.mp hd with rfl | hd
      · exact hx
      · exact lt_trans hx (h.1 d hd)
    · split
      · rename_i hx
        subst hx
        exact List.pairwise_cons.mpr ⟨h.1, h.2⟩
      · rename_i h1 h2
        refine List.pairwise_cons.mpr ⟨fun d hd => ?_, ih h.2⟩
        rcases Memory.mem_write m x v d hd with rfl | hd
        · simp only; omega
        · exact h.1 d hd

/-- Appending keeps the canonical form. -/
theorem Memory.appendBytes_wf (m : Memory) (bs : List Byte) (h : m.wf) : (m.appendBytes bs).wf := by
  induction bs generalizing m with
  | nil => exact h
  | cons b bs ih => exact ih _ (Memory.write_wf m _ b h)

/-- Placing bytes keeps the canonical form. -/
theorem Memory.writeBytes_wf (m : Memory) (p : Word) (bs : List Byte) (h : m.wf) : (m.writeBytes p bs).wf := by
  induction bs generalizing m p with
  | nil => exact h
  | cons b bs ih => exact ih _ _ (Memory.write_wf m _ b h)

/-- The reset program has the canonical form. -/
theorem State.reset_program_wf : State.reset.program.wf := List.Pairwise.nil

/-- A dense program is in canonical form. -/
theorem Memory.wf_of_dense (m : Memory) (h : m.dense) : m.wf := by
  have h1 : (m.map Prod.fst).Pairwise (· < ·) := by
    rw [h]
    exact List.pairwise_lt_range
  simpa [Memory.wf, List.pairwise_map] using h1

@[simp] theorem Memory.fetch_zero (m : Memory) (p : Word) : m.fetch 0 p = [] := rfl

theorem Memory.fetch_succ_none (m : Memory) (n : Nat) (p : Word) (h : m.byteAt p.toNat = none) : m.fetch (n + 1) p = [] := by
  simp [Memory.fetch, h]

theorem Memory.fetch_succ_some (m : Memory) (n : Nat) (p : Word) (b : Byte) (h : m.byteAt p.toNat = some b) :
    m.fetch (n + 1) p = b :: m.fetch n (p + 1) := by
  simp [Memory.fetch, h]

theorem Memory.fetch_offset_succ (p : Word) (k : Nat) : p + 1 + BitVec.ofNat 32 k = p + BitVec.ofNat 32 (k + 1) := by
  rw [BitVec.ofNat_add, BitVec.add_assoc, BitVec.add_comm (BitVec.ofNat 32 k)]
  rfl

/-- A fetched byte is the program byte at its offset. -/
theorem Memory.byteAt_of_fetch_some (m : Memory) (n k : Nat) (p : Word) (b : Byte) (h : (m.fetch n p)[k]? = some b) :
    m.byteAt (p + BitVec.ofNat 32 k).toNat = some b := by
  induction n generalizing p k with
  | zero => simp at h
  | succ n ih =>
    cases hb : m.byteAt p.toNat with
    | none => simp [Memory.fetch_succ_none _ _ _ hb] at h
    | some c =>
      rw [Memory.fetch_succ_some _ _ _ _ hb] at h
      rcases k with _ | k
      · simp only [List.getElem?_cons_zero, Option.some.injEq] at h
        subst h
        simpa using hb
      · rw [← Memory.fetch_offset_succ]
        exact ih k (p + 1) (by simpa using h)

/-- The first byte a fetch lacks is not in the program. -/
theorem Memory.byteAt_of_fetch_none (m : Memory) (n k : Nat) (p : Word) (hk : k < n) (h : (m.fetch n p)[k]? = none)
    (hp : ∀ j < k, (m.fetch n p)[j]? ≠ none) : m.byteAt (p + BitVec.ofNat 32 k).toNat = none := by
  induction n generalizing p k with
  | zero => omega
  | succ n ih =>
    cases hb : m.byteAt p.toNat with
    | none =>
      rcases k with _ | k
      · simpa using hb
      · exact absurd (by rw [Memory.fetch_succ_none _ _ _ hb]; rfl) (hp 0 (by omega))
    | some c =>
      rw [Memory.fetch_succ_some _ _ _ _ hb] at h
      rcases k with _ | k
      · simp at h
      · rw [← Memory.fetch_offset_succ]
        refine ih k (p + 1) (by omega) (by simpa using h) fun j hj => ?_
        have := hp (j + 1) (by omega)
        rw [Memory.fetch_succ_some _ _ _ _ hb] at this
        simpa using this

theorem Memory.byteAt_of_consecutive (m : Memory) (k x : Nat) (h : m.map Prod.fst = List.range' k m.length) :
    m.byteAt (k + x) = (m.map Prod.snd)[x]? ∧ (x < k → m.byteAt x = none) := by
  induction m generalizing k x with
  | nil => simp
  | cons c m ih =>
    obtain ⟨a, b⟩ := c
    simp only [List.map_cons, List.length_cons, List.range'_succ, List.cons.injEq] at h
    obtain ⟨rfl, h⟩ := h
    constructor
    · rcases x with _ | x
      · simp [Memory.byteAt]
      · have := (ih (a + 1) x h).1
        simp only [Memory.byteAt, List.map_cons, List.getElem?_cons_succ, ← this]
        rw [if_neg (by omega), show a + 1 + x = a + (x + 1) by omega]
    · intro hx
      rw [Memory.byteAt, if_neg (by omega)]
      exact (ih (a + 1) x h).2 (by omega)

/-- A dense program reads as its bytes in order (spec/10_state.md R23). -/
theorem Memory.byteAt_of_dense (m : Memory) (x : Nat) (h : m.dense) : m.byteAt x = (m.map Prod.snd)[x]? := by
  have := (Memory.byteAt_of_consecutive m 0 x (by rw [h, List.range_eq_range'])).1
  simpa using this

theorem Memory.extent_of_consecutive (m : Memory) (k : Nat) (h : m.map Prod.fst = List.range' k m.length) (hm : m ≠ []) :
    m.extent = k + m.length := by
  induction m generalizing k with
  | nil => exact absurd rfl hm
  | cons c m ih =>
    obtain ⟨a, b⟩ := c
    simp only [List.map_cons, List.length_cons, List.range'_succ, List.cons.injEq] at h
    obtain ⟨rfl, h⟩ := h
    rcases m with _ | ⟨d, m⟩
    · simp [Memory.extent]
    · rw [Memory.extent, ih (a + 1) h (by simp)]
      simp only [List.length_cons]
      omega

/-- The `prog_len` of a dense program is its number of cells (spec/10_state.md R23). -/
theorem Memory.extent_of_dense (m : Memory) (h : m.dense) : m.extent = m.length := by
  rcases m with _ | ⟨c, m⟩
  · rfl
  · rw [Memory.extent_of_consecutive (c :: m) 0 (by rw [h, List.range_eq_range']) (by simp)]
    simp

/-- A write at the extent keeps a program dense. -/
theorem Memory.write_extent_dense (m : Memory) (v : Byte) (h : m.dense) : (m.write m.extent v).dense := by
  rw [Memory.write_extent, Memory.extent_of_dense m h]
  simp only [Memory.dense, List.map_append, List.map_cons, List.map_nil, List.length_append, List.length_cons,
    List.length_nil, h, List.range_succ]

/-- Appending keeps a program dense (spec/40_engine.md R64). -/
theorem Memory.appendBytes_dense (m : Memory) (bs : List Byte) (h : m.dense) : (m.appendBytes bs).dense := by
  induction bs generalizing m with
  | nil => exact h
  | cons b bs ih => exact ih _ (Memory.write_extent_dense m b h)

/-- Appending makes the program longer by the number of bytes (spec/40_engine.md R64). -/
theorem Memory.extent_appendBytes (m : Memory) (bs : List Byte) : (m.appendBytes bs).extent = m.extent + bs.length := by
  induction bs generalizing m with
  | nil => rfl
  | cons b bs ih =>
    rw [Memory.appendBytes, ih, Memory.write_extent]
    simp
    omega

/-! ### Registers -/

/-- Read after write of a register; no register is hardwired (spec/10_state.md R12). -/
theorem State.readReg_writeReg (s : State) (i j : Reg) (v : Word) :
    (s.writeReg i v).readReg j = if i = j then v else s.readReg j := by
  simp only [State.readReg, State.writeReg_regs, Vector.getElem_set, Fin.ext_iff]

@[simp] theorem State.readReg_writeReg_self (s : State) (i : Reg) (v : Word) : (s.writeReg i v).readReg i = v := by
  simp [State.readReg_writeReg]

@[simp] theorem State.readReg_setPc (s : State) (v : Word) (i : Reg) : (s.setPc v).readReg i = s.readReg i := rfl

@[simp] theorem State.readReg_opcodeFetched (s : State) (i : Reg) : s.opcodeFetched.readReg i = s.readReg i := rfl

/-! ### The ends of a step -/

@[simp] theorem raiseFault_eq (site : Site) (f : Fault) (s : State) :
    raiseFault site f s = .next (s.setReport (.faulted ⟨site, f⟩)) := rfl

@[simp] theorem continueStep_eq (s : State) : continueStep s = .next (s.setReport .continued) := rfl

@[simp] theorem haltStep_eq (s : State) : haltStep s = .next (s.setReport .halted) := rfl

@[simp] theorem exhaustStep_eq (s : State) : exhaustStep s = .next (s.setReport .exhausted) := rfl

@[simp] theorem State.setPc_siteOf_b0 (s : State) (v : Word) (op : Opcode) : ((s.setPc v).siteOf op).b0 = (s.siteOf op).b0 := rfl

@[simp] theorem State.siteOf_a (s : State) (op : Opcode) : (s.siteOf op).a = s.pc := rfl

/-- Taking a fault says only this: one next state, `pc` and every other field as they stood, the record reported
(spec/60_exceptions.md R97). -/
theorem raiseFault_next (site : Site) (f : Fault) (s t : State) (h : raiseFault site f s = .next t) :
    t = s.setReport (.faulted ⟨site, f⟩) := by
  simpa using h.symm

end Sys2Proof.Machine
end

