-- ==== Sys2Proof/Laws/Operands.lean ====
section
/-! SUPPORT. What the operand-fetch primitives and the formats do: each either raises one of the two operand faults, with `pc`
alone moved, or passes on the operands with `pc` past them. -/

namespace Sys2Proof.Machine

theorem regByte_toNat (r : Reg) : (regByte r).toNat = r.val := by
  have h := r.isLt
  simp only [Config.regCount] at h
  simp only [regByte, BitVec.toNat_ofNat]
  omega

@[simp] theorem regOf_regByte (r : Reg) : regOf (regByte r) = some r := by
  have h : (regByte r).toNat < Config.regCount := by rw [regByte_toNat]; exact r.isLt
  simp only [regOf, h, dif_pos]
  congr 1
  exact Fin.ext (regByte_toNat r)

theorem regOf_eq_none (b : Byte) (h : 32 ≤ b.toNat) : regOf b = none := by
  simp [regOf, Config.regCount, h]

theorem regOf_eq_some (b : Byte) (r : Reg) (h : regOf b = some r) : b = regByte r := by
  simp only [regOf] at h
  split at h
  · cases h
    apply BitVec.eq_of_toNat_eq
    rw [regByte_toNat]
  · cases h

/-- An operand byte names a register or is 32 or more (spec/10_state.md R14). -/
theorem regByte_or_out_of_range (b : Byte) : (∃ r, b = regByte r) ∨ 32 ≤ b.toNat := by
  by_cases h : 32 ≤ b.toNat
  · exact .inr h
  · exact .inl ⟨⟨b.toNat, by simpa [Config.regCount] using h⟩, BitVec.eq_of_toNat_eq (by rw [regByte_toNat])⟩

@[simp] theorem nextByte_none (site : Site) (s : State) (k : Byte → State → Outcome) :
    nextByte site none s k = raiseFault site (.truncatedInstruction s.pc) s := rfl

@[simp] theorem nextByte_some (site : Site) (b : Byte) (s : State) (k : Byte → State → Outcome) :
    nextByte site (some b) s k = k b (s.setPc (s.pc + 1)) := rfl

@[simp] theorem nextReg_none (site : Site) (s : State) (k : Reg → State → Outcome) :
    nextReg site none s k = raiseFault site (.truncatedInstruction s.pc) s := rfl

@[simp] theorem nextReg_regByte (site : Site) (r : Reg) (s : State) (k : Reg → State → Outcome) :
    nextReg site (some (regByte r)) s k = k r (s.setPc (s.pc + 1)) := by
  simp [nextReg]

theorem nextReg_out_of_range (site : Site) (b : Byte) (s : State) (k : Reg → State → Outcome) (h : 32 ≤ b.toNat) :
    nextReg site (some b) s k = raiseFault site (.registerIndexOutOfRange b s.pc) (s.setPc (s.pc + 1)) := by
  simp [nextReg, regOf_eq_none b h]

/-- Everything `NextReg` can do (spec/40_engine.md R54). -/
theorem nextReg_cases (site : Site) (o : Operand) (s : State) (k : Reg → State → Outcome) :
    (o = none ∧ nextReg site o s k = raiseFault site (.truncatedInstruction s.pc) s) ∨
    (∃ b, o = some b ∧ 32 ≤ b.toNat ∧
      nextReg site o s k = raiseFault site (.registerIndexOutOfRange b s.pc) (s.setPc (s.pc + 1))) ∨
    (∃ r, o = some (regByte r) ∧ nextReg site o s k = k r (s.setPc (s.pc + 1))) := by
  rcases o with _ | b
  · exact .inl ⟨rfl, rfl⟩
  · rcases regByte_or_out_of_range b with ⟨r, rfl⟩ | h
    · exact .inr (.inr ⟨r, rfl, nextReg_regByte ..⟩)
    · exact .inr (.inl ⟨b, rfl, h, nextReg_out_of_range _ _ _ _ h⟩)

@[simp] theorem nextImm16_none (site : Site) (s : State) (k : Half → State → Outcome) :
    nextImm16 site none s k = raiseFault site (.truncatedInstruction s.pc) s := rfl

@[simp] theorem nextImm16_some (site : Site) (v : Half) (s : State) (k : Half → State → Outcome) :
    nextImm16 site (some v) s k = k v (s.setPc (s.pc + 2)) := rfl

@[simp] theorem skip_eq (n : Nat) (s : State) : skip n s = s.setPc (s.pc + BitVec.ofNat 32 n) := rfl

/-- The two faults an operand fetch raises, with where each leaves `pc` (spec/60_exceptions.md R90 rows 2 and 5). -/
inductive OperandFault : Fault → Word → Prop
  | missing (v : Word) : OperandFault (.truncatedInstruction v) v
  | outOfRange (b : Byte) (v : Word) (h : 32 ≤ b.toNat) : OperandFault (.registerIndexOutOfRange b v) (v + 1)

/-- Everything format R can do. -/
theorem withR_cases (op : Opcode) (r : Operand) (s : State) (k : Reg → State → Outcome) :
    (∃ f v, OperandFault f v ∧ withR op r s k = raiseFault (s.siteOf op) f (s.setPc v)) ∨
    (∃ i, r = some (regByte i) ∧ withR op r s k = k i (s.setPc (s.pc + 1 + 1))) := by
  rcases nextReg_cases (s.siteOf op) r s.opcodeFetched k with ⟨-, h⟩ | ⟨b, -, hb, h⟩ | ⟨i, hi, h⟩
  · exact .inl ⟨_, _, .missing _, h⟩
  · exact .inl ⟨_, _, .outOfRange b _ hb, h⟩
  · exact .inr ⟨i, hi, h⟩

/-- Everything format RRR can do. -/
theorem withRRR_cases (op : Opcode) (r1 r2 r3 : Operand) (s : State) (k : Reg → Reg → Reg → State → Outcome) :
    (∃ f v, OperandFault f v ∧ withRRR op r1 r2 r3 s k = raiseFault (s.siteOf op) f (s.setPc v)) ∨
    (∃ i1 i2 i3, r1 = some (regByte i1) ∧ r2 = some (regByte i2) ∧ r3 = some (regByte i3) ∧
      withRRR op r1 r2 r3 s k = k i1 i2 i3 (s.setPc (s.pc + 1 + 1 + 1 + 1))) := by
  unfold withRRR
  rcases nextReg_cases (s.siteOf op) r1 s.opcodeFetched _ with ⟨-, h⟩ | ⟨b, -, hb, h⟩ | ⟨i1, h1, h⟩
  · exact .inl ⟨_, _, .missing _, h⟩
  · exact .inl ⟨_, _, .outOfRange b _ hb, h⟩
  rw [h]
  rcases nextReg_cases (s.siteOf op) r2 (s.opcodeFetched.setPc (s.opcodeFetched.pc + 1)) _ with
    ⟨-, h⟩ | ⟨b, -, hb, h⟩ | ⟨i2, h2, h⟩
  · exact .inl ⟨_, _, .missing _, h⟩
  · exact .inl ⟨_, _, .outOfRange b _ hb, h⟩
  rw [h]
  rcases nextReg_cases (s.siteOf op) r3 (s.setPc (s.pc + 1 + 1 + 1)) (k i1 i2) with
    ⟨-, h⟩ | ⟨b, -, hb, h⟩ | ⟨i3, h3, h⟩
  · exact .inl ⟨_, _, .missing _, h⟩
  · exact .inl ⟨_, _, .outOfRange b _ hb, h⟩
  · exact .inr ⟨i1, i2, i3, h1, h2, h3, h⟩

/-- Everything format RRP can do; the padding byte is passed over whatever it holds. -/
theorem withRRP_cases (op : Opcode) (r1 r2 p : Operand) (s : State) (k : Reg → Reg → State → Outcome) :
    (∃ f v, OperandFault f v ∧ withRRP op r1 r2 p s k = raiseFault (s.siteOf op) f (s.setPc v)) ∨
    (∃ i1 i2 b, r1 = some (regByte i1) ∧ r2 = some (regByte i2) ∧ p = some b ∧
      withRRP op r1 r2 p s k = k i1 i2 (s.setPc (s.pc + 1 + 1 + 1 + 1))) := by
  unfold withRRP
  rcases nextReg_cases (s.siteOf op) r1 s.opcodeFetched _ with ⟨-, h⟩ | ⟨b, -, hb, h⟩ | ⟨i1, h1, h⟩
  · exact .inl ⟨_, _, .missing _, h⟩
  · exact .inl ⟨_, _, .outOfRange b _ hb, h⟩
  rw [h]
  rcases nextReg_cases (s.siteOf op) r2 (s.opcodeFetched.setPc (s.opcodeFetched.pc + 1)) _ with
    ⟨-, h⟩ | ⟨b, -, hb, h⟩ | ⟨i2, h2, h⟩
  · exact .inl ⟨_, _, .missing _, h⟩
  · exact .inl ⟨_, _, .outOfRange b _ hb, h⟩
  rw [h]
  rcases p with _ | b
  · exact .inl ⟨_, _, .missing _, rfl⟩
  · exact .inr ⟨i1, i2, b, h1, h2, rfl, rfl⟩

/-- Everything format RI can do. -/
theorem withRI_cases (op : Opcode) (r : Operand) (imm : ImmOperand) (s : State) (k : Reg → Half → State → Outcome) :
    (∃ f v, OperandFault f v ∧ withRI op r imm s k = raiseFault (s.siteOf op) f (s.setPc v)) ∨
    (∃ i v, r = some (regByte i) ∧ imm = some v ∧ withRI op r imm s k = k i v (s.setPc (s.pc + 1 + 1 + 2))) := by
  unfold withRI
  rcases nextReg_cases (s.siteOf op) r s.opcodeFetched _ with ⟨-, h⟩ | ⟨b, -, hb, h⟩ | ⟨i, hi, h⟩
  · exact .inl ⟨_, _, .missing _, h⟩
  · exact .inl ⟨_, _, .outOfRange b _ hb, h⟩
  rw [h]
  rcases imm with _ | v
  · exact .inl ⟨_, _, .missing _, rfl⟩
  · exact .inr ⟨i, v, hi, rfl, rfl⟩

/-- Everything a comparison can do (spec/44_compare.md R77). -/
theorem compareRegs_cases (op : Opcode) (rel : Word → Word → Bool) (r1 r2 p : Operand) (s : State) :
    (∃ f v, OperandFault f v ∧ compareRegs op rel r1 r2 p s = raiseFault (s.siteOf op) f (s.setPc v)) ∨
    (∃ i1 i2 b, r1 = some (regByte i1) ∧ r2 = some (regByte i2) ∧ p = some b ∧
      compareRegs op rel r1 r2 p s =
        continueStep ((s.setPc (s.pc + 1 + 1 + 1 + 1)).setEqualFlag (rel (s.readReg i1) (s.readReg i2)))) := by
  rcases withRRP_cases op r1 r2 p s
    (fun i1 i2 s' => continueStep (s'.setEqualFlag (rel (s'.readReg i1) (s'.readReg i2)))) with h | ⟨i1, i2, b, h1, h2, h3, h⟩
  · exact .inl h
  · exact .inr ⟨i1, i2, b, h1, h2, h3, h⟩

end Sys2Proof.Machine
end

