-- ==== Sys2Proof/Laws/Exec.lean ====
section
/-! SUPPORT. Everything each meaning can do, one inversion lemma per instruction: it takes an operand fault, or a fault of its
own checks, or completes with the state given. -/

namespace Sys2Proof.Machine

variable (s : State)

theorem pc_add_two (p : Word) : p + 1 + 1 = p + 2 := by bv_omega

theorem pc_add_four (p : Word) : p + 1 + 1 + 1 + 1 = p + 4 := by bv_omega

theorem pc_add_two_two (p : Word) : p + 1 + 1 + 2 = p + 4 := by bv_omega

/-- The outcome `o` takes an operand fault of the instruction `op`: `pc` alone moves (spec/60_exceptions.md R97). -/
def TakesOperandFault (op : Opcode) (o : Outcome) : Prop :=
  ∃ f v, OperandFault f v ∧ o = .next ((s.setPc v).setReport (.faulted ⟨s.siteOf op, f⟩))

theorem execLoad_cases (r : Operand) (imm : ImmOperand) :
    TakesOperandFault s .load (execLoad r imm s) ∨
    ∃ i v, r = some (regByte i) ∧ imm = some v ∧
      execLoad r imm s = .next (((s.setPc (s.pc + 4)).writeReg i (zext32 v)).setReport .continued) := by
  rcases withRI_cases .load r imm s (fun i v s' => continueStep (s'.writeReg i (zext32 v))) with h | ⟨i, v, h1, h2, h⟩
  · exact .inl h
  · rw [pc_add_two_two] at h
    exact .inr ⟨i, v, h1, h2, h⟩

theorem arith_cases (op : Opcode) (f : Int → Int → Int) (r1 r2 r3 : Operand) :
    TakesOperandFault s op (arith op f r1 r2 r3 s) ∨
    ∃ i1 i2 i3, r1 = some (regByte i1) ∧ r2 = some (regByte i2) ∧ r3 = some (regByte i3) ∧
      arith op f r1 r2 r3 s =
        .next (((s.setPc (s.pc + 4)).writeReg i3 (wrap32 (f (s32 (s.readReg i1)) (s32 (s.readReg i2))))).setReport .continued) := by
  rcases withRRR_cases op r1 r2 r3 s (fun i1 i2 i3 s' =>
    continueStep (s'.writeReg i3 (wrap32 (f (s32 (s'.readReg i1)) (s32 (s'.readReg i2)))))) with h | ⟨i1, i2, i3, h1, h2, h3, h⟩
  · exact .inl h
  · rw [pc_add_four] at h
    exact .inr ⟨i1, i2, i3, h1, h2, h3, h⟩

theorem execAdd_cases (r1 r2 r3 : Operand) :
    TakesOperandFault s .add (execAdd r1 r2 r3 s) ∨
    ∃ i1 i2 i3, r1 = some (regByte i1) ∧ r2 = some (regByte i2) ∧ r3 = some (regByte i3) ∧
      execAdd r1 r2 r3 s =
        .next (((s.setPc (s.pc + 4)).writeReg i3 (wrap32 (s32 (s.readReg i1) + s32 (s.readReg i2)))).setReport .continued) :=
  arith_cases s .add (fun n d => n + d) r1 r2 r3

theorem execSub_cases (r1 r2 r3 : Operand) :
    TakesOperandFault s .sub (execSub r1 r2 r3 s) ∨
    ∃ i1 i2 i3, r1 = some (regByte i1) ∧ r2 = some (regByte i2) ∧ r3 = some (regByte i3) ∧
      execSub r1 r2 r3 s =
        .next (((s.setPc (s.pc + 4)).writeReg i3 (wrap32 (s32 (s.readReg i1) - s32 (s.readReg i2)))).setReport .continued) :=
  arith_cases s .sub (fun n d => n - d) r1 r2 r3

theorem execMul_cases (r1 r2 r3 : Operand) :
    TakesOperandFault s .mul (execMul r1 r2 r3 s) ∨
    ∃ i1 i2 i3, r1 = some (regByte i1) ∧ r2 = some (regByte i2) ∧ r3 = some (regByte i3) ∧
      execMul r1 r2 r3 s =
        .next (((s.setPc (s.pc + 4)).writeReg i3 (wrap32 (s32 (s.readReg i1) * s32 (s.readReg i2)))).setReport .continued) :=
  arith_cases s .mul (fun n d => n * d) r1 r2 r3

theorem execDiv_cases (r1 r2 r3 : Operand) :
    TakesOperandFault s .div (execDiv r1 r2 r3 s) ∨
    ∃ i1 i2 i3, r1 = some (regByte i1) ∧ r2 = some (regByte i2) ∧ r3 = some (regByte i3) ∧
      ((s32 (s.readReg i2) = 0 ∧ execDiv r1 r2 r3 s =
          .next ((s.setPc (s.pc + 4)).setReport (.faulted ⟨s.siteOf .div, .divideByZero i2⟩))) ∨
       (s32 (s.readReg i2) ≠ 0 ∧ execDiv r1 r2 r3 s =
          .next ((((s.setPc (s.pc + 4)).writeReg i3 (wrap32 (divQuotient (s32 (s.readReg i1)) (s32 (s.readReg i2))))).setRemainder
            (wrap32 (divRemainder (s32 (s.readReg i1)) (s32 (s.readReg i2))))).setReport .continued))) := by
  unfold execDiv
  rcases withRRR_cases .div r1 r2 r3 s _ with h | ⟨i1, i2, i3, h1, h2, h3, h⟩
  · exact .inl h
  · refine .inr ⟨i1, i2, i3, h1, h2, h3, ?_⟩
    rw [h, pc_add_four]
    by_cases h0 : s32 (s.readReg i2) = 0 <;> simp [h0]

theorem execJmp_cases (r : Operand) :
    TakesOperandFault s .jmp (execJmp r s) ∨
    ∃ i, r = some (regByte i) ∧ execJmp r s = .next ((s.setPc (s.readReg i)).setReport .continued) :=
  withR_cases .jmp r s _

theorem wrap32_add_s32 (p v : Word) : wrap32 (p.toNat + s32 v) = p + v := by
  simp [wrap32, s32, BitVec.ofInt_add]

theorem wrap32_sub_s32 (p v : Word) : wrap32 (p.toNat - s32 v) = p - v := by
  simp [wrap32, s32, Int.sub_eq_add_neg, BitVec.ofInt_add, BitVec.ofInt_neg, BitVec.sub_eq_add_neg]

theorem jumpForward_eq (i : Reg) : jumpForward i s = s.setPc (s.pc + s.readReg i) := by
  unfold jumpForward
  rw [wrap32_add_s32]

theorem jumpBackward_eq (i : Reg) : jumpBackward i s = s.setPc (s.pc - s.readReg i) := by
  unfold jumpBackward
  rw [wrap32_sub_s32]

theorem execJmpf_cases (r : Operand) :
    TakesOperandFault s .jmpf (execJmpf r s) ∨
    ∃ i, r = some (regByte i) ∧ execJmpf r s = .next ((s.setPc (s.pc + 2 + s.readReg i)).setReport .continued) := by
  unfold execJmpf
  rcases withR_cases .jmpf r s _ with h | ⟨i, h1, h⟩
  · exact .inl h
  · refine .inr ⟨i, h1, ?_⟩
    rw [h, pc_add_two]
    simp [jumpForward_eq]

theorem execJmpb_cases (r : Operand) :
    TakesOperandFault s .jmpb (execJmpb r s) ∨
    ∃ i, r = some (regByte i) ∧
      ((s.params.jmpbMode = .referenceAdd ∧
          execJmpb r s = .next ((s.setPc (s.pc + 2 + s.readReg i)).setReport .continued)) ∨
       (s.params.jmpbMode = .correctedSubtract ∧
          execJmpb r s = .next ((s.setPc (s.pc + 2 - s.readReg i)).setReport .continued))) := by
  unfold execJmpb
  rcases withR_cases .jmpb r s _ with h | ⟨i, h1, h⟩
  · exact .inl h
  · refine .inr ⟨i, h1, ?_⟩
    rw [h, pc_add_two]
    cases hm : s.params.jmpbMode <;> simp [hm, jumpForward_eq, jumpBackward_eq]

/-- What `compareRegs_cases` says, for the meaning of a comparison `op` with the relation `rel`. -/
def ComparesWith (op : Opcode) (rel : Word → Word → Bool) (r1 r2 p : Operand) (o : Outcome) : Prop :=
  TakesOperandFault s op o ∨
  ∃ i1 i2 b, r1 = some (regByte i1) ∧ r2 = some (regByte i2) ∧ p = some b ∧
    o = .next (((s.setPc (s.pc + 4)).setEqualFlag (rel (s.readReg i1) (s.readReg i2))).setReport .continued)

theorem compareRegs_comparesWith (op : Opcode) (rel : Word → Word → Bool) (r1 r2 p : Operand) :
    ComparesWith s op rel r1 r2 p (compareRegs op rel r1 r2 p s) := by
  rcases compareRegs_cases op rel r1 r2 p s with h | ⟨i1, i2, b, h1, h2, h3, h⟩
  · exact .inl h
  · rw [pc_add_four] at h
    exact .inr ⟨i1, i2, b, h1, h2, h3, h⟩

theorem execEq_cases (r1 r2 p : Operand) : ComparesWith s .eq relEq r1 r2 p (execEq r1 r2 p s) :=
  compareRegs_comparesWith ..

theorem execNeq_cases (r1 r2 p : Operand) : ComparesWith s .neq relNeq r1 r2 p (execNeq r1 r2 p s) :=
  compareRegs_comparesWith ..

theorem execGt_cases (r1 r2 p : Operand) : ComparesWith s .gt relGt r1 r2 p (execGt r1 r2 p s) :=
  compareRegs_comparesWith ..

theorem execGte_cases (r1 r2 p : Operand) : ComparesWith s .gte relGte r1 r2 p (execGte r1 r2 p s) :=
  compareRegs_comparesWith ..

theorem execLt_cases (r1 r2 p : Operand) : ComparesWith s .lt relLt r1 r2 p (execLt r1 r2 p s) :=
  compareRegs_comparesWith ..

theorem execLte_cases (r1 r2 p : Operand) : ComparesWith s .lte relLte r1 r2 p (execLte r1 r2 p s) :=
  compareRegs_comparesWith ..

theorem execJmpe_cases (r : Operand) :
    ((s.equalFlag = true ∨ s.params.jmpeFalseMode = .correctedConsume) ∧ TakesOperandFault s .jmpe (execJmpe r s)) ∨
    (s.equalFlag = true ∧ ∃ i, r = some (regByte i) ∧
      execJmpe r s = .next ((s.setPc (s.readReg i)).setReport .continued)) ∨
    (s.equalFlag = false ∧ s.params.jmpeFalseMode = .referenceNoConsume ∧
      execJmpe r s = .next ((s.setPc (s.pc + 1)).setReport .continued)) ∨
    (s.equalFlag = false ∧ s.params.jmpeFalseMode = .correctedConsume ∧ ∃ i, r = some (regByte i) ∧
      execJmpe r s = .next ((s.setPc (s.pc + 2)).setReport .continued)) := by
  unfold execJmpe
  cases hf : s.equalFlag
  · cases hm : s.params.jmpeFalseMode
    · exact .inr (.inr (.inl ⟨rfl, rfl, rfl⟩))
    · rcases withR_cases .jmpe r s (fun _ s' => continueStep s') with h | ⟨i, h1, h⟩
      · exact .inl ⟨.inr rfl, h⟩
      · rw [pc_add_two] at h
        exact .inr (.inr (.inr ⟨rfl, rfl, i, h1, h⟩))
  · rcases withR_cases .jmpe r s (fun i s' => continueStep (s'.setPc (s'.readReg i))) with h | ⟨i, h1, h⟩
    · exact .inl ⟨.inl rfl, h⟩
    · exact .inr (.inl ⟨rfl, i, h1, h⟩)

theorem execHlt_next : execHlt s = .next ((s.setPc (s.pc + 1)).setReport .halted) := rfl

theorem execNop_next (s1 s2 s3 : Operand) : execNop s1 s2 s3 s = .next ((s.setPc (s.pc + 4)).setReport .continued) := by
  have h : s.pc + 1 + BitVec.ofNat 32 Config.nopSkip = s.pc + 4 := by
    simp only [Config.nopSkip]
    bv_omega
  simp only [execNop, skip_eq, State.opcodeFetched_pc, h]
  rfl

theorem execIllegal_next (b0 : Byte) :
    execIllegal b0 s = .next ((s.setPc (s.pc + 1)).setReport (.faulted ⟨⟨s.pc, b0⟩, .invalidOpcode⟩)) := rfl

theorem execAloc_cases (r : Operand) :
    TakesOperandFault s .aloc (execAloc r s) ∨
    ∃ i, r = some (regByte i) ∧
      ((s32 (s.readReg i) < 0 ∧ execAloc r s =
          .next ((s.setPc (s.pc + 2)).setReport (.faulted ⟨s.siteOf .aloc, .negativeAllocation (s32 (s.readReg i))⟩))) ∨
       (0 ≤ s32 (s.readReg i) ∧ s.params.heapCapacity < s.heapLen + (s32 (s.readReg i)).toNat ∧ execAloc r s =
          .next ((s.setPc (s.pc + 2)).setReport (.faulted ⟨s.siteOf .aloc, .heapExhausted (s32 (s.readReg i))⟩))) ∨
       (0 ≤ s32 (s.readReg i) ∧ s.heapLen + (s32 (s.readReg i)).toNat ≤ s.params.heapCapacity ∧ execAloc r s =
          .next (((s.setPc (s.pc + 2)).heapGrow (s32 (s.readReg i)).toNat).setReport .continued))) := by
  unfold execAloc
  rcases withR_cases .aloc r s _ with h | ⟨i, h1, h⟩
  · exact .inl h
  · refine .inr ⟨i, h1, ?_⟩
    rw [h, pc_add_two]
    by_cases h0 : s32 (s.readReg i) < 0
    · simp [h0]
    · by_cases h2 : s.params.heapCapacity < s.heapLen + (s32 (s.readReg i)).toNat
      · simp [h0, h2, not_lt.mp h0]
      · simp [h0, h2, not_lt.mp h0, not_lt.mp h2]

end Sys2Proof.Machine
end

