-- ==== Sys2Proof/Laws/PerInstr.lean ====
section
/-! SUPPORT. Facts about each instruction as syntax, one lemma per constructor. -/

namespace Sys2Proof.Laws

/-- The encoding of a complete instruction has the length of its format (spec/30_encoding.md R39, R44; JMPE with its operand). -/
def EncodeLength.Statement (i : Instr) : Prop :=
  ∀ (codes : Config.RelJumpCodes) (p : Config.Params), i.complete = true → (encode codes i).length = i.length p true

/-- The opcode byte of a complete instruction selects its own opcode (spec/30_encoding.md R41, R43). -/
def OpcodeByte.Statement (i : Instr) : Prop :=
  ∀ codes : Config.RelJumpCodes, i.complete = true → fromByte codes (i.opcodeByte codes) = i.opcode

theorem EncodeLength.load (r : Operand) (imm : ImmOperand) : EncodeLength.Statement (.load r imm) := by
  intro codes prm h
  rcases r with _ | r <;> rcases imm with _ | imm <;> first | rfl | simp [Instr.complete] at h

theorem EncodeLength.add (r1 r2 r3 : Operand) : EncodeLength.Statement (.add r1 r2 r3) := by
  intro codes prm h
  rcases r1 with _ | r1 <;> rcases r2 with _ | r2 <;> rcases r3 with _ | r3 <;> first | rfl | simp [Instr.complete] at h

theorem EncodeLength.sub (r1 r2 r3 : Operand) : EncodeLength.Statement (.sub r1 r2 r3) := by
  intro codes prm h
  rcases r1 with _ | r1 <;> rcases r2 with _ | r2 <;> rcases r3 with _ | r3 <;> first | rfl | simp [Instr.complete] at h

theorem EncodeLength.mul (r1 r2 r3 : Operand) : EncodeLength.Statement (.mul r1 r2 r3) := by
  intro codes prm h
  rcases r1 with _ | r1 <;> rcases r2 with _ | r2 <;> rcases r3 with _ | r3 <;> first | rfl | simp [Instr.complete] at h

theorem EncodeLength.div (r1 r2 r3 : Operand) : EncodeLength.Statement (.div r1 r2 r3) := by
  intro codes prm h
  rcases r1 with _ | r1 <;> rcases r2 with _ | r2 <;> rcases r3 with _ | r3 <;> first | rfl | simp [Instr.complete] at h

theorem EncodeLength.hlt : EncodeLength.Statement .hlt := by
  intro codes prm h
  rfl

theorem EncodeLength.jmp (r : Operand) : EncodeLength.Statement (.jmp r) := by
  intro codes prm h
  rcases r with _ | r <;> first | rfl | simp [Instr.complete] at h

theorem EncodeLength.jmpb (r : Operand) : EncodeLength.Statement (.jmpb r) := by
  intro codes prm h
  rcases r with _ | r <;> first | rfl | simp [Instr.complete] at h

theorem EncodeLength.jmpf (r : Operand) : EncodeLength.Statement (.jmpf r) := by
  intro codes prm h
  rcases r with _ | r <;> first | rfl | simp [Instr.complete] at h

theorem EncodeLength.eq (r1 r2 p : Operand) : EncodeLength.Statement (.eq r1 r2 p) := by
  intro codes prm h
  rcases r1 with _ | r1 <;> rcases r2 with _ | r2 <;> rcases p with _ | p <;> first | rfl | simp [Instr.complete] at h

theorem EncodeLength.neq (r1 r2 p : Operand) : EncodeLength.Statement (.neq r1 r2 p) := by
  intro codes prm h
  rcases r1 with _ | r1 <;> rcases r2 with _ | r2 <;> rcases p with _ | p <;> first | rfl | simp [Instr.complete] at h

theorem EncodeLength.gte (r1 r2 p : Operand) : EncodeLength.Statement (.gte r1 r2 p) := by
  intro codes prm h
  rcases r1 with _ | r1 <;> rcases r2 with _ | r2 <;> rcases p with _ | p <;> first | rfl | simp [Instr.complete] at h

theorem EncodeLength.lte (r1 r2 p : Operand) : EncodeLength.Statement (.lte r1 r2 p) := by
  intro codes prm h
  rcases r1 with _ | r1 <;> rcases r2 with _ | r2 <;> rcases p with _ | p <;> first | rfl | simp [Instr.complete] at h

theorem EncodeLength.lt (r1 r2 p : Operand) : EncodeLength.Statement (.lt r1 r2 p) := by
  intro codes prm h
  rcases r1 with _ | r1 <;> rcases r2 with _ | r2 <;> rcases p with _ | p <;> first | rfl | simp [Instr.complete] at h

theorem EncodeLength.gt (r1 r2 p : Operand) : EncodeLength.Statement (.gt r1 r2 p) := by
  intro codes prm h
  rcases r1 with _ | r1 <;> rcases r2 with _ | r2 <;> rcases p with _ | p <;> first | rfl | simp [Instr.complete] at h

theorem EncodeLength.jmpe (r : Operand) : EncodeLength.Statement (.jmpe r) := by
  intro codes prm h
  rcases r with _ | r <;> first | rfl | simp [Instr.complete] at h

theorem EncodeLength.nop (s1 s2 s3 : Operand) : EncodeLength.Statement (.nop s1 s2 s3) := by
  intro codes prm h
  rcases s1 with _ | s1 <;> rcases s2 with _ | s2 <;> rcases s3 with _ | s3 <;> first | rfl | simp [Instr.complete] at h

theorem EncodeLength.aloc (r : Operand) : EncodeLength.Statement (.aloc r) := by
  intro codes prm h
  rcases r with _ | r <;> first | rfl | simp [Instr.complete] at h

theorem EncodeLength.illegal (b0 : Byte) : EncodeLength.Statement (.illegal b0) := by
  intro codes prm h
  rfl

theorem OpcodeByte.load (r : Operand) (imm : ImmOperand) : OpcodeByte.Statement (.load r imm) := by
  intro codes h
  cases codes <;> rfl

theorem OpcodeByte.add (r1 r2 r3 : Operand) : OpcodeByte.Statement (.add r1 r2 r3) := by
  intro codes h
  cases codes <;> rfl

theorem OpcodeByte.sub (r1 r2 r3 : Operand) : OpcodeByte.Statement (.sub r1 r2 r3) := by
  intro codes h
  cases codes <;> rfl

theorem OpcodeByte.mul (r1 r2 r3 : Operand) : OpcodeByte.Statement (.mul r1 r2 r3) := by
  intro codes h
  cases codes <;> rfl

theorem OpcodeByte.div (r1 r2 r3 : Operand) : OpcodeByte.Statement (.div r1 r2 r3) := by
  intro codes h
  cases codes <;> rfl

theorem OpcodeByte.hlt : OpcodeByte.Statement .hlt := by
  intro codes h
  cases codes <;> rfl

theorem OpcodeByte.jmp (r : Operand) : OpcodeByte.Statement (.jmp r) := by
  intro codes h
  cases codes <;> rfl

theorem OpcodeByte.jmpb (r : Operand) : OpcodeByte.Statement (.jmpb r) := by
  intro codes h
  cases codes <;> rfl

theorem OpcodeByte.jmpf (r : Operand) : OpcodeByte.Statement (.jmpf r) := by
  intro codes h
  cases codes <;> rfl

theorem OpcodeByte.eq (r1 r2 p : Operand) : OpcodeByte.Statement (.eq r1 r2 p) := by
  intro codes h
  cases codes <;> rfl

theorem OpcodeByte.neq (r1 r2 p : Operand) : OpcodeByte.Statement (.neq r1 r2 p) := by
  intro codes h
  cases codes <;> rfl

theorem OpcodeByte.gte (r1 r2 p : Operand) : OpcodeByte.Statement (.gte r1 r2 p) := by
  intro codes h
  cases codes <;> rfl

theorem OpcodeByte.lte (r1 r2 p : Operand) : OpcodeByte.Statement (.lte r1 r2 p) := by
  intro codes h
  cases codes <;> rfl

theorem OpcodeByte.lt (r1 r2 p : Operand) : OpcodeByte.Statement (.lt r1 r2 p) := by
  intro codes h
  cases codes <;> rfl

theorem OpcodeByte.gt (r1 r2 p : Operand) : OpcodeByte.Statement (.gt r1 r2 p) := by
  intro codes h
  cases codes <;> rfl

theorem OpcodeByte.jmpe (r : Operand) : OpcodeByte.Statement (.jmpe r) := by
  intro codes h
  cases codes <;> rfl

theorem OpcodeByte.nop (s1 s2 s3 : Operand) : OpcodeByte.Statement (.nop s1 s2 s3) := by
  intro codes h
  cases codes <;> rfl

theorem OpcodeByte.aloc (r : Operand) : OpcodeByte.Statement (.aloc r) := by
  intro codes h
  cases codes <;> rfl

theorem OpcodeByte.illegal (b0 : Byte) : OpcodeByte.Statement (.illegal b0) := by
  intro codes h
  exact fromByte_of_le codes b0 (of_decide_eq_true h)

end Sys2Proof.Laws
end

