-- ==== Sys2Proof/Laws/Step.lean ====
section
/-! SUPPORT. Everything a step and the host operations can do, said once. -/

namespace Sys2Proof.Machine

/-- A step either finds no byte at `pc` and reports `Exhausted`, or runs the instruction that begins there
(spec/40_engine.md R52). -/
theorem step_cases (s : State) :
    (s.program.byteAt s.pc.toNat = none ∧ s.fetchWindow = [] ∧ step s = .next (s.setReport .exhausted)) ∨
    ∃ b0 bs i, s.program.byteAt s.pc.toNat = some b0 ∧ bs = s.program.fetch 3 (s.pc + 1) ∧ s.fetchWindow = b0 :: bs ∧
      decode s.params.relJumpCodes (b0 :: bs) = .ok i ∧ step s = exec i s := by
  cases h : s.program.byteAt s.pc.toNat with
  | none =>
    have hw : s.fetchWindow = [] := Memory.fetch_succ_none _ 3 _ h
    exact .inl ⟨rfl, hw, by simp [step, hw]⟩
  | some b0 =>
    have hw : s.fetchWindow = b0 :: s.program.fetch 3 (s.pc + 1) := Memory.fetch_succ_some _ 3 _ b0 h
    obtain ⟨i, hi⟩ := decode_cons_ok s.params.relJumpCodes b0 (s.program.fetch 3 (s.pc + 1))
    exact .inr ⟨b0, _, i, rfl, rfl, hw, hi, by simp only [step, hw, hi]⟩

/-- `run_one` gives the next state (spec/40_engine.md R61). -/
theorem runOne_of_step (s t : State) (h : step s = .next t) : runOne s = t := by
  simp [runOne, h]

@[simp] theorem runFor_zero (s : State) : runFor 0 s = .running s := rfl

theorem runFor_succ (n : Nat) (s : State) :
    runFor (n + 1) s = if (runOne s).report = some .continued then runFor n (runOne s) else .ended (runOne s) := rfl

/-- Everything `append` can do (spec/40_engine.md R64). -/
theorem appendProgram_cases (bs : List Byte) (s : State) :
    (s.params.progCapacity < s.progLen + bs.length ∧ appendProgram bs s = (.refused, s)) ∨
    (s.progLen + bs.length ≤ s.params.progCapacity ∧
      appendProgram bs s = (.accepted, s.setProgram (s.program.appendBytes bs))) := by
  by_cases h : s.params.progCapacity < s.progLen + bs.length
  · exact .inl ⟨h, by simp [appendProgram, h]⟩
  · exact .inr ⟨not_lt.mp h, by simp [appendProgram, h]⟩

end Sys2Proof.Machine
end

