-- ==== Sys2Proof/Tests/Slice0.lean ====
section
/-! SUPPORT. The model's own tests: the checks of WellFormed, each encoding written out from spec/30_encoding.md R39 and R41, the
vectors of spec/95_test_vectors.md named in each comment, and a witness for the hypotheses of each statement that has some. -/

namespace Sys2Proof.Tests

open Sys2Proof.Machine

/-- Parameters with the modes given and capacities for small tests. -/
def testParams (jmpb : Config.JmpbMode) (jmpe : Config.JmpeFalseMode) (heap prog : Nat) : Config.Params :=
  ⟨.doc, jmpb, jmpe, heap, prog⟩

/-- The spec's default modes with `HEAP_CAPACITY` 2048 (spec/95_test_vectors.md, Conventions). -/
def defaults : Config.Params := testParams .referenceAdd .referenceNoConsume 2048 64

/-- A start state: the parameters, the registers that are not 0, and the program bytes from offset 0. -/
def start (p : Config.Params) (regs : List (Reg × Word)) (bytes : List Byte) : State :=
  regs.foldl (fun s rv => s.writeReg rv.1 rv.2) ((State.resetWith p).setProgram (Memory.appendBytes [] bytes))

/-- The report of a fault. -/
def faultAt (a : Word) (b0 : Byte) (f : Fault) : Option StepOutcome := some (.faulted ⟨⟨a, b0⟩, f⟩)

/-! ### WellFormed refuses an ill-formed term of each kind (R14, R39, R42) -/

theorem test_wf_missing_byte : (Instr.add (some 1) (some 2) none).wellFormed = false := by decide

theorem test_wf_missing_immediate : (Instr.load (some 1) none).wellFormed = false := by decide

theorem test_wf_register_32 : (Instr.jmp (some 32)).wellFormed = false := by decide

theorem test_wf_illegal_17 : (Instr.illegal 17).wellFormed = false := by decide

theorem test_wf_missing_padding : (Instr.eq (some 1) (some 2) none).wellFormed = false := by decide

theorem test_wf_missing_skipped : (Instr.nop (some 1) none (some 2)).wellFormed = false := by decide

theorem test_wf_padding_any : (Instr.eq (some 31) (some 0) (some 255)).wellFormed = true := by decide

/-! ### Every constructor's decoding, on words written out from R39 and R41 -/

theorem test_decode_load : decode .doc [0b00000000, 3, 0x12, 0x34] = .ok (.load (some 3) (some 0x1234)) := by decide
theorem test_decode_add : decode .doc [0b00000001, 1, 2, 3] = .ok (.add (some 1) (some 2) (some 3)) := by decide
theorem test_decode_sub : decode .doc [0b00000010, 1, 2, 3] = .ok (.sub (some 1) (some 2) (some 3)) := by decide
theorem test_decode_mul : decode .doc [0b00000011, 1, 2, 3] = .ok (.mul (some 1) (some 2) (some 3)) := by decide
theorem test_decode_div : decode .doc [0b00000100, 1, 2, 40] = .ok (.div (some 1) (some 2) (some 40)) := by decide
theorem test_decode_hlt : decode .doc [0b00000101] = .ok .hlt := by decide
theorem test_decode_jmp : decode .doc [0b00000110, 7] = .ok (.jmp (some 7)) := by decide
theorem test_decode_jmpb : decode .doc [0b00000111, 7] = .ok (.jmpb (some 7)) := by decide
theorem test_decode_jmpf : decode .doc [0b00001000, 7] = .ok (.jmpf (some 7)) := by decide
theorem test_decode_jmpf_swapped : decode .swapped [0b00000111, 7] = .ok (.jmpf (some 7)) := by decide
theorem test_decode_eq : decode .doc [0b00001001, 1, 2, 9] = .ok (.eq (some 1) (some 2) (some 9)) := by decide
theorem test_decode_neq : decode .doc [0b00001010, 1, 2, 9] = .ok (.neq (some 1) (some 2) (some 9)) := by decide
theorem test_decode_gte : decode .doc [0b00001011, 1, 2, 9] = .ok (.gte (some 1) (some 2) (some 9)) := by decide
theorem test_decode_lte : decode .doc [0b00001100, 1, 2, 9] = .ok (.lte (some 1) (some 2) (some 9)) := by decide
theorem test_decode_lt : decode .doc [0b00001101, 1, 2, 9] = .ok (.lt (some 1) (some 2) (some 9)) := by decide
theorem test_decode_gt : decode .doc [0b00001110, 1, 2, 9] = .ok (.gt (some 1) (some 2) (some 9)) := by decide
theorem test_decode_jmpe : decode .doc [0b00001111, 5] = .ok (.jmpe (some 5)) := by decide
theorem test_decode_nop_short : decode .doc [0b00010000, 5] = .ok (.nop (some 5) none none) := by decide
theorem test_decode_aloc : decode .doc [0b00010001, 5] = .ok (.aloc (some 5)) := by decide
theorem test_decode_illegal : decode .doc [0b00010010, 5] = .ok (.illegal 18) := by decide
theorem test_decode_empty : decode .doc [] = .error .noInstruction := by decide
theorem test_decode_high_byte_only : decode .doc [0, 0, 0x12] = .ok (.load (some 0) none) := by decide
theorem test_table_word : decodeTableWord 32 0x34120300 = some (.load (some 3) (some 0x1234)) := by decide

/-! ### Vectors of spec/95_test_vectors.md -/

/-- V-LOAD-2. -/
theorem test_load_zero_extends : (runOne (start defaults [] [0, 0, 0x80, 0])).readReg 0 = 32768 := by decide

/-- V-LOAD-10. -/
theorem test_load_bad_register_first : (runOne (start defaults [] [0, 0x40, 0x12])).report =
    faultAt 0 0 (.registerIndexOutOfRange 64 1) := by decide

/-- V-ADD-2. -/
theorem test_add_wraps : (runOne (start defaults [(0, 0x7FFFFFFF), (1, 1)] [1, 0, 1, 2])).readReg 2 = 0x80000000 := by decide

/-- V-SUB-1. -/
theorem test_sub_order : (runOne (start defaults [(0, 5), (1, 7)] [2, 0, 1, 2])).readReg 2 = 0xFFFFFFFE := by decide

/-- V-MUL-7. -/
theorem test_mul_low_half : (runOne (start defaults [(0, 65535), (1, 65535)] [3, 0, 1, 2])).readReg 2 = 0xFFFE0001 := by decide

/-- V-DIV-2. -/
theorem test_div_negative_dividend : (runOne (start defaults [(0, 0xFFFFFFEF), (1, 5)] [4, 0, 1, 2])).readReg 2 = 0xFFFFFFFD ∧
    (runOne (start defaults [(0, 0xFFFFFFEF), (1, 5)] [4, 0, 1, 2])).remainder = 0xFFFFFFFE := by decide

/-- V-DIV-7. -/
theorem test_div_overflow : (runOne (start defaults [(0, 0x80000000), (1, 0xFFFFFFFF)] [4, 0, 1, 2])).readReg 2 = 0x80000000 ∧
    (runOne (start defaults [(0, 0x80000000), (1, 0xFFFFFFFF)] [4, 0, 1, 2])).remainder = 0 := by decide

/-- V-JMP-3. -/
theorem test_jmp_unsigned : (runOne (start defaults [(0, 0xFFFFFFFF)] [6, 0])).pc = 0xFFFFFFFF := by decide

/-- V-JMPF-4. -/
theorem test_jmpf_wraps : (runOne (start defaults [(1, 0xFFFFFFFC)] [8, 1])).pc = 0xFFFFFFFE := by decide

/-- V-JMPB-4. -/
theorem test_jmpb_adds : (runOne (start defaults [(1, 0xFFFFFFFE)] [7, 1])).pc = 0 := by decide

/-- V-JMPB-5. -/
theorem test_jmpb_subtracts :
    (runOne (start (testParams .correctedSubtract .referenceNoConsume 2048 64) [(1, 0xFFFFFFFC)] [7, 1])).pc = 6 := by decide

/-- V-CMP-2. -/
theorem test_eq_padding : (runOne (start defaults [(0, 5), (1, 5)] [9, 0, 1, 0x20])).equalFlag = true := by decide

/-- The truth table, row 7, 5. -/
theorem test_neq : (runOne (start defaults [(0, 7), (1, 5)] [10, 0, 1, 0])).equalFlag = true := by decide

/-- The truth table, row 1, -1. -/
theorem test_gt_signed : (runOne (start defaults [(0, 1), (1, 0xFFFFFFFF)] [14, 0, 1, 0])).equalFlag = true := by decide

/-- The truth table, row 5, 5. -/
theorem test_gte_equal : (runOne (start defaults [(0, 5), (1, 5)] [11, 0, 1, 0])).equalFlag = true := by decide

/-- The truth table, row 0x80000000, 0x7FFFFFFF. -/
theorem test_lt_signed : (runOne (start defaults [(0, 0x80000000), (1, 0x7FFFFFFF)] [13, 0, 1, 0])).equalFlag = true := by decide

/-- The truth table, row 7, 5, from a true flag. -/
theorem test_lte_clears : (runOne ((start defaults [(0, 7), (1, 5)] [12, 0, 1, 0]).setEqualFlag true)).equalFlag = false := by decide

/-- V-CMP-6. -/
theorem test_compare_padding_missing : (runOne (start defaults [] [9, 0, 1])).report =
    faultAt 0 9 (.truncatedInstruction 3) := by decide

/-- V-JMPE-1. -/
theorem test_jmpe_taken : (runOne ((start defaults [(3, 16)] [15, 3]).setEqualFlag true)).pc = 16 := by decide

/-- V-JMPE-8 and V-JMPE-3. -/
theorem test_jmpe_false : (runOne (start defaults [] [15])).pc = 1 ∧
    (runOne (start (testParams .referenceAdd .correctedConsume 2048 64) [(3, 16)] [15, 3])).pc = 2 := by decide

/-- V-HLT-1. -/
theorem test_hlt : (runOne (start defaults [] [5])).pc = 1 ∧ (runOne (start defaults [] [5])).report = some .halted := by decide

/-- V-NOP-3. -/
theorem test_nop_at_end : (runOne (start defaults [] [16])).pc = 4 ∧
    (runOne (start defaults [] [16])).report = some .continued := by decide

/-- V-ILL-3. -/
theorem test_illegal_100 : (runOne (start defaults [] [0x64])).pc = 1 ∧
    (runOne (start defaults [] [0x64])).report = faultAt 0 0x64 .invalidOpcode := by decide

/-- V-ALOC-8. -/
theorem test_aloc_past_capacity :
    (runOne ((start (testParams .referenceAdd .referenceNoConsume 16 64) [(0, 8)] [17, 0]).setHeapLen 9)).report =
    faultAt 0 17 (.heapExhausted 8) := by decide

/-- V-ALOC-11. -/
theorem test_aloc_negative_first :
    (runOne (start (testParams .referenceAdd .referenceNoConsume 0 64) [(0, 0xFFFFFFFB)] [17, 0])).report =
    faultAt 0 17 (.negativeAllocation (-5)) := by decide

/-- V-STEP-1. -/
theorem test_step_empty : (runOne (start defaults [] [])).report = some .exhausted := by decide

/-- V-PRI-5. -/
theorem test_truncation_before_divide : (runOne (start defaults [(0, 1)] [4, 0, 1])).report =
    faultAt 0 4 (.truncatedInstruction 3) := by decide

/-- V-HOST-1. -/
theorem test_append_refused :
    (appendProgram [0, 0, 0, 5, 5] (State.resetWith (testParams .referenceAdd .referenceNoConsume 0 4))).1 = .refused := by decide

/-- spec/60_exceptions.md R90. -/
theorem test_fault_codes : [FaultKind.invalidOpcode, .registerIndexOutOfRange, .divideByZero, .negativeAllocation,
    .truncatedInstruction, .heapExhausted].map FaultKind.code = [1, 2, 3, 4, 5, 6] := by decide

/-- The interface's first step after reset runs the word stored (V-LOAD-1). -/
theorem test_with_fetch_word : (runOne (State.reset.withFetchWord 32 0x34120300)).readReg 3 = 0x1234 := by decide

/-! ### Witnesses: hypotheses of the statements met, at the boundary of each range -/

/-- `17 / 5` at offset 0, then HLT. -/
def divState : State := start defaults [(0, 17), (1, 5)] [4, 0, 1, 2, 5]

/-- A one-byte program. -/
def oneByte (b : Byte) : State := start defaults [] [b]

theorem divState_inv : divState.Inv := ⟨by decide, by decide, by decide, by decide⟩

theorem witness_StepRunsDecodedInstruction :
    decode divState.params.relJumpCodes divState.fetchWindow = .ok (.div (some 0) (some 1) (some 2)) := by decide

theorem witness_StepRunsEncodedBytes : (Instr.div (some 0) (some 1) (some 2)).complete = true ∧
    ∀ (k : Nat) (b : Byte), (encode divState.params.relJumpCodes (.div (some 0) (some 1) (some 2)))[k]? = some b →
      divState.programByteAt (divState.pc + BitVec.ofNat 32 k).toNat = some b := by
  refine ⟨by decide, fun k b h => ?_⟩
  match k, h with
  | 0, h | 1, h | 2, h | 3, h => exact h
  | n + 4, h => exact absurd h (by simp [encode, Instr.operandBytes])

theorem witness_DecodeOfEncodeIsTheInstruction : (Instr.load (some 255) (some 0xFFFF)).complete = true ∧
    (Instr.illegal 18).complete = true ∧ (Instr.illegal 255).complete = true := by decide

theorem witness_DecodedBytesAreTheEncoding : decode .doc [17, 255, 9] = .ok (.aloc (some 255)) ∧
    (Instr.aloc (some 255)).complete = true := by decide

theorem witness_OpcodeMapIsTheTable : (6 : Byte) ≠ 7 ∧ (6 : Byte) ≠ 8 ∧ (9 : Byte) ≠ 7 ∧ (9 : Byte) ≠ 8 ∧
    18 ≤ (18 : Byte).toNat ∧ 18 ≤ (255 : Byte).toNat := by decide

theorem witness_ToByteInvertsFromByte : (17 : Byte).toNat < 18 ∧ Opcode.illegal.toByte .swapped = 100 := by decide

theorem witness_IllegalBytesDecodeToIllegal : 18 ≤ (18 : Byte).toNat ∧ 18 ≤ (255 : Byte).toNat := by decide

theorem witness_FetchWindowIsTheProgramAtPc : divState.Inv := divState_inv

theorem witness_ResetMeetsInvariant : (testParams .referenceAdd .referenceNoConsume 0 1).valid ∧
    (testParams .correctedSubtract .correctedConsume (2 ^ 32 - 1) (2 ^ 32 - 4)).valid := by decide

theorem witness_StepKeepsInvariant : divState.Inv ∧ step divState = .next (runOne divState) := ⟨divState_inv, rfl⟩

theorem witness_HostOperationsKeepInvariant : divState.Inv := divState_inv

theorem witness_AppendAddsBytesAtTheEndOrRefuses :
    let s := State.resetWith (testParams .referenceAdd .referenceNoConsume 0 4)
    s.progLen + [(0 : Byte), 0, 0, 5].length ≤ s.params.progCapacity ∧
      s.params.progCapacity < s.progLen + [(0 : Byte), 0, 0, 5, 5].length := by decide

theorem witness_ExhaustedExactlyAtTheEnd : (divState.setPc 5).progLen ≤ (divState.setPc 5).pc.toNat ∧
    (divState.setPc 4).Inv ∧ (divState.setPc 4).pc.toNat < (divState.setPc 4).progLen :=
  ⟨by decide, ⟨by decide, by decide, by decide, by decide⟩, by decide⟩

/-- A step that faults, of each kind. -/
theorem witness_FaultingStepChangesOnlyPc :
    (runOne (oneByte 200)).report = faultAt 0 200 .invalidOpcode ∧
    (runOne (start defaults [] [6, 32])).report = faultAt 0 6 (.registerIndexOutOfRange 32 1) ∧
    (runOne (start defaults [(0, 17)] [4, 0, 1, 2])).report = faultAt 0 4 (.divideByZero 1) ∧
    (runOne (start defaults [(0, 0xFFFFFFFF)] [17, 0])).report = faultAt 0 17 (.negativeAllocation (-1)) ∧
    (runOne (oneByte 6)).report = faultAt 0 6 (.truncatedInstruction 1) ∧
    (runOne (start defaults [(0, 2049)] [17, 0])).report = faultAt 0 17 (.heapExhausted 2049) ∧
    step (oneByte 200) = .next (runOne (oneByte 200)) ∧ step (oneByte 6) = .next (runOne (oneByte 6)) :=
  ⟨by decide, by decide, by decide, by decide, by decide, by decide, rfl, rfl⟩

/-- The two places of row 5 of spec/60_exceptions.md R90, each in a state that meets the invariant: `prog_len - 1` for a LOAD with
the high byte of its immediate alone, `prog_len` for an ADD short of its last operand byte. The other rows' faults are those of
`witness_FaultingStepChangesOnlyPc`. -/
theorem witness_FaultRecordAndPcAreTheTables :
    ((start defaults [] [0, 0, 0x12]).Inv ∧
      step (start defaults [] [0, 0, 0x12]) = .next (runOne (start defaults [] [0, 0, 0x12])) ∧
      (runOne (start defaults [] [0, 0, 0x12])).report = faultAt 0 0 (.truncatedInstruction 2)) ∧
    ((start defaults [] [1, 0, 1]).Inv ∧
      step (start defaults [] [1, 0, 1]) = .next (runOne (start defaults [] [1, 0, 1])) ∧
      (runOne (start defaults [] [1, 0, 1])).report = faultAt 0 1 (.truncatedInstruction 3)) :=
  ⟨⟨⟨by decide, by decide, by decide, by decide⟩, rfl, by decide⟩,
    ⟨⟨by decide, by decide, by decide, by decide⟩, rfl, by decide⟩⟩

theorem witness_NoStepWritesProgramOrParameters : step divState = .next (runOne divState) := rfl

theorem witness_OnlyComparisonsWriteEqualFlag : exec .hlt divState = .next ((divState.setPc 1).setReport .halted) ∧
    Instr.hlt.opcode ∉ [Opcode.eq, .neq, .gt, .gte, .lt, .lte] := ⟨rfl, by decide⟩

theorem witness_OnlyDivWritesRemainderAndNoneReadsIt :
    (exec .hlt divState = .next ((divState.setPc 1).setReport .halted) ∧ Instr.hlt.opcode ≠ .div) ∧
    (exec (.div (some 0) (some 1) (some 2)) divState = .next (runOne divState) ∧
      (Instr.div (some 0) (some 1) (some 2)).opcode = .div ∧ (runOne divState).report = some .continued) ∧
    (exec (.div (some 0) (some 3) (some 2)) divState =
        .next ((divState.setPc 4).setReport (.faulted ⟨⟨0, 4⟩, .divideByZero 3⟩)) ∧
      ¬((Instr.div (some 0) (some 3) (some 2)).opcode = .div ∧
        ((divState.setPc 4).setReport (.faulted ⟨⟨0, 4⟩, .divideByZero 3⟩)).report = some .continued)) :=
  ⟨⟨rfl, by decide⟩, ⟨rfl, by decide, by decide⟩, ⟨rfl, by decide⟩⟩

/-- `5 = 5`, a comparison that completes with the flag set. -/
def eqState : State := start defaults [(0, 5), (1, 5)] [9, 0, 1, 0]

theorem witness_OnlyJmpeReadsEqualFlag :
    ((Instr.eq (some 0) (some 1) (some 0)).opcode ≠ .jmpe ∧
      (Instr.eq (some 0) (some 1) (some 0)).opcode ∈ [Opcode.eq, .neq, .gt, .gte, .lt, .lte] ∧
      exec (.eq (some 0) (some 1) (some 0)) eqState = .next (runOne eqState) ∧
      (runOne eqState).report = some .continued ∧ (runOne eqState).equalFlag = true) ∧
    ((Instr.div (some 0) (some 1) (some 2)).opcode ≠ .jmpe ∧
      exec (.div (some 0) (some 1) (some 2)) divState = .next (runOne divState) ∧
      ¬((Instr.div (some 0) (some 1) (some 2)).opcode ∈ [Opcode.eq, .neq, .gt, .gte, .lt, .lte] ∧
        (runOne divState).report = some .continued)) :=
  ⟨⟨by decide, by decide, rfl, by decide, by decide⟩, ⟨by decide, rfl, by decide⟩⟩

theorem witness_RegisterWritesAreTheTables : exec (.div (some 0) (some 1) (some 2)) divState = .next (runOne divState) ∧
    (runOne divState).readReg 2 ≠ divState.readReg 2 := ⟨rfl, by decide⟩

theorem witness_NoRegisterReadByLoadHltNopIllegal :
    ((Instr.load (some (regByte 31)) (some 7)).opcode ∈ [Opcode.load, .hlt, .nop, .illegal] ∧
      exec (.load (some (regByte 31)) (some 7)) divState =
        .next (((divState.setPc 4).writeReg 31 7).setReport .continued) ∧
      (((divState.setPc 4).writeReg 31 7).setReport .continued).report = some .continued) ∧
    (Instr.hlt.opcode ∈ [Opcode.load, .hlt, .nop, .illegal] ∧
      exec .hlt divState = .next ((divState.setPc 1).setReport .halted) ∧
      ¬(Instr.hlt.opcode = .load ∧ ((divState.setPc 1).setReport .halted).report = some .continued)) :=
  ⟨⟨by decide, rfl, rfl⟩, ⟨by decide, rfl, by decide⟩⟩

/-- ALOC of 5 bytes. -/
def alocState : State := start defaults [(0, 5)] [17, 0]

theorem witness_HeapGrowsOnlyByAlocAndIsZero : exec (.aloc (some 0)) alocState = .next (runOne alocState) ∧
    (runOne alocState).heapLen ≠ alocState.heapLen ∧ 4 < (runOne alocState).heapLen ∧ (runOne alocState).heapLen ≤ 5 :=
  ⟨rfl, by decide, by decide, by decide⟩

theorem witness_HaltExactlyByHltAndInvalidOpcodeExactlyByIllegal :
    exec .hlt divState = .next ((divState.setPc 1).setReport .halted) ∧
    exec (.illegal 18) divState = .next ((divState.setPc 1).setReport (.faulted ⟨⟨0, 18⟩, .invalidOpcode⟩)) := ⟨rfl, rfl⟩

theorem witness_CompletedNonJumpAdvancesByItsLength :
    exec (.jmpe none) divState = .next ((divState.setPc 1).setReport .continued) ∧
    (∀ rec, ((divState.setPc 1).setReport .continued).report ≠ some (.faulted rec)) ∧
    (Instr.jmpe none).opcode ∉ [Opcode.jmp, .jmpf, .jmpb] ∧
    ¬((Instr.jmpe none).opcode = .jmpe ∧ divState.equalFlag = true) :=
  ⟨rfl, fun rec h => by simp at h, by decide, by decide⟩

/-- JMPE with its operand byte 5 at offset 1. -/
def jmpeState : State := start defaults [] [15, 5, 16, 0]

theorem witness_JmpeFalsePathDecodesItsOperandByte : jmpeState.programByteAt jmpeState.pc.toNat = some 0x0F ∧
    jmpeState.programByteAt (jmpeState.pc + 1).toNat = some 5 ∧ jmpeState.equalFlag = false ∧
    jmpeState.params.jmpeFalseMode = .referenceNoConsume := by decide

theorem witness_RunStopsAtTheFirstOtherOutcome : runFor 2 divState = .ended (runOne (runOne divState)) ∧
    runFor 1 divState = .running (runOne divState) := ⟨by decide, by decide⟩

theorem witness_SafeRunEndsNormally : SafeFor 2 divState ∧ runFor 2 divState = .ended (runOne (runOne divState)) :=
  ⟨⟨by decide, fun _ => ⟨by decide, fun _ => trivial⟩⟩, by decide⟩

theorem witness_ResetValues : divState.params = defaults := rfl

theorem witness_RelativeJumpsAgreeUnderReferenceAdd : divState.params.jmpbMode = .referenceAdd := rfl

/-- The operand faults of the instruction statements: the first byte missing, the first byte 32, the last byte 255, a bad byte
before a missing one, and none for register bytes 0 and 31. They are the hypotheses of the operand-fault clauses of
LoadWritesTheImmediateZeroExtended, Add…, Sub…, Mul…, Jmp…, Jmpf…, Jmpb…, Aloc… and the six comparisons' statements. -/
theorem witness_operandFault :
    operandFault 0 1 [none] = some (.truncatedInstruction 1, 1) ∧
    operandFault 0 1 [some 32] = some (.registerIndexOutOfRange 32 1, 2) ∧
    operandFault 0 1 [some 0, some 31, some 255] = some (.registerIndexOutOfRange 255 3, 4) ∧
    operandFault 0 1 [some 0, some 34, none] = some (.registerIndexOutOfRange 34 2, 3) ∧
    operandFault 0 1 [some 0, some 31, none] = some (.truncatedInstruction 3, 3) ∧
    operandFault 0 1 [some 0, some 31] = none := by decide

theorem witness_DivWritesQuotientAndRemainder : s32 (divState.readReg 1) ≠ 0 ∧
    (start defaults [(0, 0x80000000), (1, 0xFFFFFFFF)] []).readReg 0 = 0x80000000 ∧
    (start defaults [(0, 0x80000000), (1, 0xFFFFFFFF)] []).readReg 1 = 0xFFFFFFFF ∧ s32 (divState.readReg 3) = 0 ∧
    operandFault divState.pc 1 [some 0, some 1, some 40] = some (.registerIndexOutOfRange 40 3, 4) := by decide

theorem witness_DivIdentityHoldsModulo : s32 (divState.readReg 1) ≠ 0 ∧
    exec (.div (some (regByte 0)) (some (regByte 1)) (some (regByte 2))) divState = .next (runOne divState) := ⟨by decide, rfl⟩

theorem witness_JmpbFollowsItsMode : divState.params.jmpbMode = .referenceAdd ∧
    (State.resetWith (testParams .correctedSubtract .correctedConsume 0 1)).params.jmpbMode = .correctedSubtract := ⟨rfl, rfl⟩

theorem witness_JmpeFollowsFlagAndMode : (divState.setEqualFlag true).equalFlag = true ∧
    divState.equalFlag = false ∧ divState.params.jmpeFalseMode = .referenceNoConsume ∧
    (State.resetWith (testParams .correctedSubtract .correctedConsume 0 1)).equalFlag = false ∧
    (State.resetWith (testParams .correctedSubtract .correctedConsume 0 1)).params.jmpeFalseMode = .correctedConsume ∧
    operandFault 0 1 [some 32] = some (.registerIndexOutOfRange 32 1, 2) := by decide

theorem witness_IllegalRaisesInvalidOpcode : 0x12 ≤ (0x12 : Byte).toNat ∧ 0x12 ≤ (0xFF : Byte).toNat := by decide

/-- Growth exactly to the capacity, one past it, and the two signs at their ends (V-ALOC-5, V-ALOC-6, V-ALOC-7). -/
theorem witness_AlocGrowsTheHeapOrFaults :
    let s := start (testParams .referenceAdd .referenceNoConsume 16 64) [(0, 16), (1, 17), (2, 0x80000000), (3, 0)] [17, 0]
    (s32 (s.readReg 0) = (16 : Nat) ∧ s.heapLen + 16 ≤ s.params.heapCapacity) ∧
    (s32 (s.readReg 3) = (0 : Nat) ∧ s.heapLen + 0 ≤ s.params.heapCapacity) ∧
    s32 (s.readReg 2) < 0 ∧
    (0 ≤ s32 (s.readReg 1) ∧ (s.params.heapCapacity : Int) < s.heapLen + s32 (s.readReg 1)) := by decide

theorem witness_MissingFirstOperandIsTruncation : (oneByte 17).Inv ∧ (oneByte 17).programByteAt (oneByte 17).pc.toNat = some 17 ∧
    (oneByte 17).progLen = (oneByte 17).pc.toNat + 1 ∧
    fromByte (oneByte 17).params.relJumpCodes 17 ∉ [Opcode.hlt, .nop, .illegal] ∧
    fromByte (oneByte 17).params.relJumpCodes 17 ≠ .jmpe :=
  ⟨⟨by decide, by decide, by decide, by decide⟩, by decide, by decide, by decide, by decide⟩

end Sys2Proof.Tests
end

section
/-! The state after reset, read through the accessors (spec/10_state.md R24, spec/70_reset_and_hazards.md R108). -/

namespace Sys2Proof.Proofs

open Sys2Proof.Machine

/-! ### Nothing stands at or beyond a length -/

/-- spec/10_state.md R21. -/
theorem heapByteAt_eq_none_of_heapLen_le (s : State) (x : Nat) (h : s.heapLen ≤ x) : s.heapByteAt x = none :=
  if_neg (Nat.not_lt.mpr h)

/-- spec/20_memory.md R31. -/
theorem programByteAt_eq_none_of_progLen_le (s : State) (x : Nat) (h : s.progLen ≤ x) : s.programByteAt x = none :=
  Memory.byteAt_eq_none_of_extent_le s.program x h

/-! ### What the accessors read after reset -/

@[simp] theorem resetWith_readReg (p : Config.Params) (r : Reg) : (State.resetWith p).readReg r = 0 := by
  simp [State.readReg]

@[simp] theorem resetWith_progLen (p : Config.Params) : (State.resetWith p).progLen = 0 := Memory.extent_nil

/-- The heap is empty, so every offset is beyond it. -/
@[simp] theorem resetWith_heapByteAt (p : Config.Params) (x : Nat) : (State.resetWith p).heapByteAt x = none :=
  heapByteAt_eq_none_of_heapLen_le _ x (by simp)

/-- The program is empty, so every offset is beyond it. -/
@[simp] theorem resetWith_programByteAt (p : Config.Params) (x : Nat) : (State.resetWith p).programByteAt x = none :=
  programByteAt_eq_none_of_progLen_le _ x (by simp)

/-- The host reset depends on nothing of the state but its parameters. -/
theorem hostReset_eq_resetWith_of_params_eq (s : State) (p : Config.Params) (h : s.params = p) :
    hostReset s = State.resetWith p :=
  congrArg State.resetWith h

/-- Settles O10: the rows of R24 in the table's order, then R108, each by the lemma about its accessor or operation. -/
theorem resetValues : Obligations.ResetValues := fun p =>
  ⟨resetWith_readReg p,
    State.resetWith_pc p,
    State.resetWith_heapLen p,
    resetWith_heapByteAt p,
    State.resetWith_equalFlag p,
    State.resetWith_remainder p,
    resetWith_progLen p,
    resetWith_programByteAt p,
    fun s => hostReset_eq_resetWith_of_params_eq s p⟩

end Sys2Proof.Proofs
end

section
/-! The opcode table in both directions, and the bytes outside it (spec/30_encoding.md R41 to R43). -/

namespace Sys2Proof.Proofs

open Config (RelJumpCodes)

/-- The two relative jumps alone look at `REL_JUMP_CODES`. -/
theorem fromByte_toByte (codes : RelJumpCodes) (op : Opcode) : fromByte codes (op.toByte codes) = op := by
  cases op with
  | jmpb | jmpf => cases codes <;> rfl
  | _ => rfl

/-- The 18 rows of R41, each read there and back. -/
theorem toByte_fromByte_of_lt (codes : RelJumpCodes) (b : Byte) (h : b.toNat < 18) : (fromByte codes b).toByte codes = b := by
  have row : ∀ n : Fin 18, (fromByte codes (BitVec.ofNat 8 n)).toByte codes = BitVec.ofNat 8 n := by
    cases codes <;> decide
  simpa using row ⟨b.toNat, h⟩

/-- Only ILLEGAL has a byte of 18 or more. -/
theorem eq_illegal_of_le_toByte (codes : RelJumpCodes) (op : Opcode) (h : 18 ≤ (op.toByte codes).toNat) : op = .illegal :=
  calc op = fromByte codes (op.toByte codes) := (fromByte_toByte codes op).symm
    _ = .illegal := fromByte_of_le codes _ h

/-- Settles O7. -/
theorem toByteInvertsFromByte : Obligations.ToByteInvertsFromByte := fun codes =>
  ⟨fromByte_toByte codes,
    toByte_fromByte_of_lt codes,
    rfl,
    fun op h => eq_illegal_of_le_toByte codes op (by rw [h]; decide)⟩

/-- ILLEGAL has no operands, so nothing after its byte is read (spec/30_encoding.md R42). -/
theorem decode_cons_of_fromByte_illegal (codes : RelJumpCodes) (b0 : Byte) (bs : List Byte) (h : fromByte codes b0 = .illegal) :
    decode codes (b0 :: bs) = .ok (.illegal b0) := by
  simp only [decode, h]

/-- Settles O8. -/
theorem illegalBytesDecodeToIllegal : Obligations.IllegalBytesDecodeToIllegal := fun codes b0 bs h =>
  decode_cons_of_fromByte_illegal codes b0 bs (fromByte_of_le codes b0 h)

end Sys2Proof.Proofs
end

section
/-! Padding and skipped bytes (spec/30_encoding.md R45): format RRP passes its padding byte to no one, and raises its fault
where there is none. -/

namespace Sys2Proof.Proofs

open Sys2Proof.Machine

/-! ### Format RRP and the comparison law -/

theorem withRRP_padding_value (op : Opcode) (r1 r2 : Operand) (p q : Byte) (s : State) (k : Reg → Reg → State → Outcome) :
    withRRP op r1 r2 (some p) s k = withRRP op r1 r2 (some q) s k := by
  simp only [withRRP, nextByte_some]

/-- The padding byte is the instruction's fourth: its offset is the address plus 3. -/
theorem withRRP_padding_missing (op : Opcode) (i1 i2 : Reg) (s : State) (k : Reg → Reg → State → Outcome) :
    withRRP op (some (regByte i1)) (some (regByte i2)) none s k =
      .next (s.endsAt (s.pc + 3) (.faulted ⟨s.siteOf op, .truncatedInstruction (s.pc + 3)⟩)) := by
  have hpc : s.pc + 1 + 1 + 1 = s.pc + 3 := by bv_omega
  simp only [withRRP, nextReg_regByte, nextByte_none, raiseFault_eq, State.setPc_pc, State.opcodeFetched_pc, hpc]
  rfl

/-! ### The six comparisons -/

/-- The six comparisons, each as the constructor that takes its two register operands and its padding byte
(spec/44_compare.md R78 to R83). -/
abbrev comparisons : List (Operand → Operand → Operand → Instr) := [Instr.eq, .neq, .gt, .gte, .lt, .lte]

/-- Each comparison is the family's law for its own opcode and some relation (spec/44_compare.md R77). -/
theorem exec_comparison (f : Operand → Operand → Operand → Instr) (hf : f ∈ comparisons) :
    ∃ op rel, (∀ r1 r2 p s, exec (f r1 r2 p) s = compareRegs op rel r1 r2 p s) ∧
      ∀ codes r1 r2 p, (f r1 r2 p).opcodeByte codes = op.toByte codes := by
  simp only [List.mem_cons, List.not_mem_nil, or_false] at hf
  rcases hf with rfl | rfl | rfl | rfl | rfl | rfl
  · exact ⟨.eq, relEq, fun _ _ _ _ => rfl, fun _ _ _ _ => rfl⟩
  · exact ⟨.neq, relNeq, fun _ _ _ _ => rfl, fun _ _ _ _ => rfl⟩
  · exact ⟨.gt, relGt, fun _ _ _ _ => rfl, fun _ _ _ _ => rfl⟩
  · exact ⟨.gte, relGte, fun _ _ _ _ => rfl, fun _ _ _ _ => rfl⟩
  · exact ⟨.lt, relLt, fun _ _ _ _ => rfl, fun _ _ _ _ => rfl⟩
  · exact ⟨.lte, relLte, fun _ _ _ _ => rfl, fun _ _ _ _ => rfl⟩

theorem exec_comparison_padding_value (f : Operand → Operand → Operand → Instr) (hf : f ∈ comparisons) (s : State)
    (r1 r2 : Operand) (p q : Byte) : exec (f r1 r2 (some p)) s = exec (f r1 r2 (some q)) s := by
  obtain ⟨op, rel, hexec, -⟩ := exec_comparison f hf
  rw [hexec, hexec]
  exact withRRP_padding_value ..

theorem exec_comparison_padding_missing (s : State) (i1 i2 : Reg) (f : Operand → Operand → Operand → Instr)
    (hf : f ∈ comparisons) : exec (f (some (regByte i1)) (some (regByte i2)) none) s = .next (s.endsAt (s.pc + 3)
      (.faulted ⟨⟨s.pc, (f none none none).opcodeByte s.params.relJumpCodes⟩, .truncatedInstruction (s.pc + 3)⟩)) := by
  obtain ⟨op, rel, hexec, hbyte⟩ := exec_comparison f hf
  rw [hexec, hbyte]
  exact withRRP_padding_missing ..

/-! ### The obligation -/

/-- Settles O29: the comparisons through their common law, NOP by its one result. -/
theorem paddingAndSkippedBytesDoNotMatter : Obligations.PaddingAndSkippedBytesDoNotMatter := by
  refine ⟨fun s r1 r2 p q => ?_, exec_comparison_padding_missing, fun s s1 s2 s3 => execNop_next s s1 s2 s3⟩
  have value (f) (hf : f ∈ comparisons) := exec_comparison_padding_value f hf s r1 r2 p q
  exact ⟨value .eq (by simp), value .neq (by simp), value .gt (by simp), value .gte (by simp), value .lt (by simp),
    value .lte (by simp)⟩

end Sys2Proof.Proofs
end

section
/-! Appending to the program (spec/40_engine.md R64): where each byte stands afterwards, and the length. -/

namespace Sys2Proof.Proofs

open Sys2Proof.Machine

theorem extent_write_extent (m : Memory) (b : Byte) : (m.write m.extent b).extent = m.extent + 1 := by
  rw [Memory.write_extent, Memory.extent_append_singleton]
  omega

/-- Reading below the old end gives the old byte: each write of `appendBytes` goes to the end there then is. -/
theorem byteAt_appendBytes_of_lt (m : Memory) (bs : List Byte) (x : Nat) (h : x < m.extent) :
    (m.appendBytes bs).byteAt x = m.byteAt x := by
  induction bs generalizing m with
  | nil => rfl
  | cons b bs ih =>
    have hx : x < (m.write m.extent b).extent := by rw [extent_write_extent]; omega
    rw [Memory.appendBytes, ih _ hx, Memory.byteAt_write, if_neg h.ne']

/-- Reading from the old end on gives the appended bytes in order, and no byte after them. -/
theorem byteAt_appendBytes_extent_add (m : Memory) (bs : List Byte) (k : Nat) :
    (m.appendBytes bs).byteAt (m.extent + k) = bs[k]? := by
  induction bs generalizing m k with
  | nil => exact Memory.byteAt_eq_none_of_extent_le m _ (by omega)
  | cons b bs ih =>
    have hend := extent_write_extent m b
    rw [Memory.appendBytes]
    cases k with
    | zero =>
      rw [byteAt_appendBytes_of_lt _ _ _ (by omega), Memory.byteAt_write]
      simp
    | succ k =>
      have hoff : m.extent + (k + 1) = (m.write m.extent b).extent + k := by omega
      rw [hoff, ih, List.getElem?_cons_succ]

/-- Settles O14: the two results of `append`, the accepted one through the reading rules of `appendBytes`. -/
theorem appendAddsBytesAtTheEndOrRefuses : Obligations.AppendAddsBytesAtTheEndOrRefuses := by
  intro s bs
  obtain ⟨hover, hres⟩ | ⟨hfits, hres⟩ := appendProgram_cases bs s
  · exact ⟨fun hfits => absurd hfits (by omega), fun _ => hres⟩
  · refine ⟨fun _ => ?_, fun hover => absurd hfits (by omega)⟩
    rw [hres]
    exact ⟨rfl,
      Memory.extent_appendBytes s.program bs,
      byteAt_appendBytes_of_lt s.program bs,
      byteAt_appendBytes_extent_add s.program bs,
      rfl⟩

end Sys2Proof.Proofs
end

section
/-! LOAD (spec/41_load.md R68), and the first register operand of any format: where `operandFault` names its fault,
`NextReg` takes it. -/

namespace Sys2Proof.Proofs

open Config (RelJumpCodes)
open Sys2Proof.Machine

/-! ### The first operand fault, operand by operand -/

@[simp] theorem operandFault_nil (a : Word) (k : Nat) : operandFault a k [] = none := rfl

@[simp] theorem operandFault_none_cons (a : Word) (k : Nat) (os : List Operand) :
    operandFault a k (none :: os) = some (.truncatedInstruction (a + BitVec.ofNat 32 k), a + BitVec.ofNat 32 k) := rfl

theorem operandFault_out_of_range_cons (a : Word) (k : Nat) (b : Byte) (os : List Operand) (h : 32 ≤ b.toNat) :
    operandFault a k (some b :: os) =
      some (.registerIndexOutOfRange b (a + BitVec.ofNat 32 k), a + BitVec.ofNat 32 (k + 1)) := if_pos h

@[simp] theorem operandFault_regByte_cons (a : Word) (k : Nat) (r : Reg) (os : List Operand) :
    operandFault a k (some (regByte r) :: os) = operandFault a (k + 1) os :=
  if_neg (by rw [regByte_toNat]; exact Nat.not_le.mpr r.isLt)

/-- One `NextReg` in terms of the operands still to come: it takes the fault `operandFault` names, or its byte names a register
and the fault is a later operand's. -/
theorem nextReg_of_operandFault_cons (site : Site) (a : Word) (n : Nat) (o : Operand) (os : List Operand) (f : Fault) (v : Word)
    (s : State) (k : Reg → State → Outcome) (hpc : s.pc = a + BitVec.ofNat 32 n) (h : operandFault a n (o :: os) = some (f, v)) :
    nextReg site o s k = .next (s.endsAt v (.faulted ⟨site, f⟩)) ∨
    ∃ r, o = some (regByte r) ∧ operandFault a (n + 1) os = some (f, v) := by
  rcases nextReg_cases site o s k with ⟨rfl, hfault⟩ | ⟨b, rfl, hb, hfault⟩ | ⟨r, rfl, -⟩
  · rw [operandFault_none_cons] at h
    cases h
    rw [hfault, ← hpc]
    exact .inl rfl
  · have hnext : a + BitVec.ofNat 32 (n + 1) = s.pc + 1 := by
      rw [hpc, BitVec.ofNat_add, BitVec.add_assoc]
      rfl
    rw [operandFault_out_of_range_cons a n b os hb, hnext, ← hpc] at h
    cases h
    exact .inl hfault
  · exact .inr ⟨r, rfl, operandFault_regByte_cons a n r os ▸ h⟩

/-- The one register operand of formats R and RI is the byte after the opcode byte. -/
theorem nextReg_opcodeFetched_of_operandFault (site : Site) (o : Operand) (f : Fault) (v : Word) (s : State)
    (k : Reg → State → Outcome) (h : operandFault s.pc 1 [o] = some (f, v)) :
    nextReg site o s.opcodeFetched k = .next (s.endsAt v (.faulted ⟨site, f⟩)) := by
  rcases nextReg_of_operandFault_cons site s.pc 1 o [] f v s.opcodeFetched k rfl h with hfault | ⟨r, -, hlater⟩
  · exact hfault
  · simp at hlater

/-! ### The immediate and its decoding -/

/-- The byte at the lower offset is the high byte (spec/30_encoding.md R40). -/
theorem bigEndian16_toNat (hi lo : Byte) : (bigEndian16 hi lo).toNat = hi.toNat * 256 + lo.toNat :=
  calc (bigEndian16 hi lo).toNat = hi.toNat <<< 8 ||| lo.toNat := BitVec.toNat_append hi lo
    _ = hi.toNat <<< 8 + lo.toNat := (Nat.shiftLeft_add_eq_or_of_lt lo.isLt hi.toNat).symm
    _ = hi.toNat * 256 + lo.toNat := by rw [Nat.shiftLeft_eq]

theorem zext32_eq_ofNat (v : Half) : zext32 v = BitVec.ofNat 32 v.toNat := (BitVec.ofNat_toNat 32 v).symm

theorem decode_load (codes : RelJumpCodes) (bs : List Byte) : decode codes (0x00 :: bs) = .ok (.load bs[0]? (immAt bs 1)) := rfl

/-! ### LOAD with its register byte in range, and without -/

theorem execLoad_regByte (r : Reg) (imm : ImmOperand) (s : State) :
    execLoad (some (regByte r)) imm s = nextImm16 (s.siteOf .load) imm (s.setPc (s.pc + 2)) fun v s' =>
      continueStep (s'.writeReg r (zext32 v)) := by
  rw [execLoad, withRI, nextReg_regByte, State.opcodeFetched_pc, pc_add_two]
  rfl

theorem execLoad_regByte_some (r : Reg) (v : Half) (s : State) :
    execLoad (some (regByte r)) (some v) s = .next ((s.writeReg r (zext32 v)).endsAt (s.pc + 4) .continued) := by
  have hpc : s.pc + 2 + 2 = s.pc + 4 := by bv_omega
  rw [execLoad_regByte, nextImm16_some, State.setPc_pc, hpc]
  rfl

theorem execLoad_regByte_none (r : Reg) (s : State) : execLoad (some (regByte r)) none s =
    .next (s.endsAt (s.pc + 2) (.faulted ⟨⟨s.pc, 0x00⟩, .truncatedInstruction (s.pc + 2)⟩)) := by
  rw [execLoad_regByte, nextImm16_none]
  rfl

theorem execLoad_of_operandFault (r : Operand) (imm : ImmOperand) (f : Fault) (v : Word) (s : State)
    (h : operandFault s.pc 1 [r] = some (f, v)) :
    execLoad r imm s = .next (s.endsAt v (.faulted ⟨⟨s.pc, 0x00⟩, f⟩)) := by
  rw [execLoad, withRI, nextReg_opcodeFetched_of_operandFault _ r f v s _ h]
  rfl

/-! ### The obligation -/

/-- Settles O33: the decoding, then LOAD's three ends. -/
theorem loadWritesTheImmediateZeroExtended : Obligations.LoadWritesTheImmediateZeroExtended := by
  refine ⟨fun codes b1 hi lo bs => ⟨bigEndian16 hi lo, bigEndian16_toNat hi lo, decode_load codes (b1 :: hi :: lo :: bs)⟩,
    fun codes b1 hi => ⟨decode_load codes [], decode_load codes [b1], decode_load codes [b1, hi]⟩,
    fun s r v => ?_,
    fun s r imm f v h => execLoad_of_operandFault r imm f v s h,
    fun s r => execLoad_regByte_none r s⟩
  rw [← zext32_eq_ofNat]
  exact execLoad_regByte_some r v s

end Sys2Proof.Proofs
end

section
/-! ADD, SUB, MUL and DIV (spec/42_arith.md R69 to R73): the two ends of format RRR, the family's law, and DIV's own checks. -/

namespace Sys2Proof.Proofs

open Sys2Proof.Machine

/-! ### Format RRR with every register byte in range, and without -/

theorem withRRR_regByte (op : Opcode) (i1 i2 i3 : Reg) (s : State) (k : Reg → Reg → Reg → State → Outcome) :
    withRRR op (some (regByte i1)) (some (regByte i2)) (some (regByte i3)) s k = k i1 i2 i3 (s.setPc (s.pc + 4)) := by
  simp only [withRRR, nextReg_regByte, State.setPc_pc, State.opcodeFetched_pc, pc_add_four]
  rfl

/-- The three register operands are the bytes 1 to 3 of the instruction, checked one after the other
(spec/40_engine.md R54, R57). -/
theorem withRRR_of_operandFault (op : Opcode) (r1 r2 r3 : Operand) (f : Fault) (v : Word) (s : State)
    (k : Reg → Reg → Reg → State → Outcome) (h1 : operandFault s.pc 1 [r1, r2, r3] = some (f, v)) :
    withRRR op r1 r2 r3 s k = .next (s.endsAt v (.faulted ⟨s.siteOf op, f⟩)) := by
  rw [withRRR]
  rcases nextReg_of_operandFault_cons (s.siteOf op) s.pc 1 r1 [r2, r3] f v s.opcodeFetched _ rfl h1 with
    hfault | ⟨i1, rfl, h2⟩
  · exact hfault
  rw [nextReg_regByte]
  have hpc2 : s.pc + 1 + 1 = s.pc + BitVec.ofNat 32 2 := pc_add_two s.pc
  rcases nextReg_of_operandFault_cons (s.siteOf op) s.pc 2 r2 [r3] f v (s.setPc (s.pc + 1 + 1)) _ hpc2 h2 with
    hfault | ⟨i2, rfl, h3⟩
  · exact hfault
  rw [nextReg_regByte]
  have hpc3 : s.pc + 1 + 1 + 1 = s.pc + BitVec.ofNat 32 3 := by bv_omega
  rcases nextReg_of_operandFault_cons (s.siteOf op) s.pc 3 r3 [] f v (s.setPc (s.pc + 1 + 1 + 1)) _ hpc3 h3 with
    hfault | ⟨i3, -, hnone⟩
  · exact hfault
  · simp at hnone

/-! ### ADD, SUB and MUL: the family's law (spec/42_arith.md R69) -/

theorem arith_regByte (op : Opcode) (g : Int → Int → Int) (r1 r2 r3 : Reg) (s : State) :
    arith op g (some (regByte r1)) (some (regByte r2)) (some (regByte r3)) s =
      .next ((s.writeReg r3 (wrap32 (g (s32 (s.readReg r1)) (s32 (s.readReg r2))))).endsAt (s.pc + 4) .continued) := by
  rw [arith, withRRR_regByte]
  rfl

theorem arith_of_operandFault (op : Opcode) (g : Int → Int → Int) (r1 r2 r3 : Operand) (f : Fault) (v : Word) (s : State)
    (h : operandFault s.pc 1 [r1, r2, r3] = some (f, v)) :
    arith op g r1 r2 r3 s = .next (s.endsAt v (.faulted ⟨s.siteOf op, f⟩)) :=
  withRRR_of_operandFault op r1 r2 r3 f v s _ h

/-- Settles O34: the decoding, then the family's law for the sum. -/
theorem addWritesTheWrappedSum : Obligations.AddWritesTheWrappedSum :=
  ⟨fun _ _ => rfl, fun s r1 r2 r3 => arith_regByte .add (· + ·) r1 r2 r3 s,
    fun s r1 r2 r3 f v h => arith_of_operandFault .add (· + ·) r1 r2 r3 f v s h⟩

/-- Settles O35: the decoding, then the family's law for the difference. -/
theorem subWritesTheWrappedDifference : Obligations.SubWritesTheWrappedDifference :=
  ⟨fun _ _ => rfl, fun s r1 r2 r3 => arith_regByte .sub (· - ·) r1 r2 r3 s,
    fun s r1 r2 r3 f v h => arith_of_operandFault .sub (· - ·) r1 r2 r3 f v s h⟩

/-- Settles O36: the decoding, then the family's law for the product. -/
theorem mulWritesTheLowProduct : Obligations.MulWritesTheLowProduct :=
  ⟨fun _ _ => rfl, fun s r1 r2 r3 => arith_regByte .mul (· * ·) r1 r2 r3 s,
    fun s r1 r2 r3 f v h => arith_of_operandFault .mul (· * ·) r1 r2 r3 f v s h⟩

/-! ### DIV: the overflow case (the spec's decision D3) is no exception modulo 2^32 -/

/-- The truncated quotient of `-2^31` and `-1` is `2^31`, which wraps to the `-2^31` that the overflow case gives. -/
theorem wrap32_divQuotient (n d : Int) : wrap32 (divQuotient n d) = wrap32 (Int.tdiv n d) := by
  rw [divQuotient]
  split
  next hover =>
    obtain ⟨rfl, rfl⟩ := hover
    decide
  next => rfl

theorem divRemainder_eq (n d : Int) : divRemainder n d = n - Int.tdiv n d * d := by
  rw [divRemainder]
  split
  next hover =>
    obtain ⟨rfl, rfl⟩ := hover
    decide
  next => rfl

/-! ### DIV's three ends (spec/42_arith.md R73) -/

theorem execDiv_regByte_of_ne_zero (r1 r2 r3 : Reg) (s : State) (hd : s32 (s.readReg r2) ≠ 0) :
    execDiv (some (regByte r1)) (some (regByte r2)) (some (regByte r3)) s =
      .next (((s.writeReg r3 (wrap32 (Int.tdiv (s32 (s.readReg r1)) (s32 (s.readReg r2))))).setRemainder
        (wrap32 (s32 (s.readReg r1) - Int.tdiv (s32 (s.readReg r1)) (s32 (s.readReg r2)) * s32 (s.readReg r2)))).endsAt
          (s.pc + 4) .continued) := by
  rw [execDiv, withRRR_regByte, ← wrap32_divQuotient, ← divRemainder_eq]
  exact if_neg hd

theorem execDiv_regByte_of_zero (r1 r2 r3 : Reg) (s : State) (hd : s32 (s.readReg r2) = 0) :
    execDiv (some (regByte r1)) (some (regByte r2)) (some (regByte r3)) s =
      .next (s.endsAt (s.pc + 4) (.faulted ⟨s.siteOf .div, .divideByZero r2⟩)) := by
  rw [execDiv, withRRR_regByte]
  exact if_pos hd

theorem execDiv_of_operandFault (r1 r2 r3 : Operand) (f : Fault) (v : Word) (s : State)
    (h : operandFault s.pc 1 [r1, r2, r3] = some (f, v)) :
    execDiv r1 r2 r3 s = .next (s.endsAt v (.faulted ⟨s.siteOf .div, f⟩)) :=
  withRRR_of_operandFault .div r1 r2 r3 f v s _ h

/-- The overflow case is the end with a divisor that is not 0, taken at `-2^31` and `-1`. -/
theorem execDiv_overflow (r1 r2 r3 : Reg) (s : State) (hn : s.readReg r1 = 0x80000000) (hd : s.readReg r2 = 0xFFFFFFFF) :
    execDiv (some (regByte r1)) (some (regByte r2)) (some (regByte r3)) s =
      .next (((s.writeReg r3 0x80000000).setRemainder 0).endsAt (s.pc + 4) .continued) := by
  have hquot : wrap32 (Int.tdiv (s32 0x80000000) (s32 0xFFFFFFFF)) = 0x80000000 := by decide
  have hrem : wrap32 (s32 0x80000000 - Int.tdiv (s32 0x80000000) (s32 0xFFFFFFFF) * s32 0xFFFFFFFF) = 0 := by decide
  have hne : s32 (s.readReg r2) ≠ 0 := by rw [hd]; decide
  rw [execDiv_regByte_of_ne_zero r1 r2 r3 s hne, hn, hd, hquot, hrem]

/-- Settles O37: the decoding, then DIV's ends. -/
theorem divWritesQuotientAndRemainder : Obligations.DivWritesQuotientAndRemainder :=
  ⟨fun _ _ => rfl, fun s r1 r2 r3 => execDiv_regByte_of_ne_zero r1 r2 r3 s, fun s r1 r2 r3 => execDiv_overflow r1 r2 r3 s,
    fun s r1 r2 r3 => execDiv_regByte_of_zero r1 r2 r3 s, fun s r1 r2 r3 f v => execDiv_of_operandFault r1 r2 r3 f v s⟩

end Sys2Proof.Proofs
end

section
/-! JMP and JMPB (spec/43_jump.md R74, R76): the two ends of format R, and JMPB's two modes. -/

namespace Sys2Proof.Proofs

open Sys2Proof.Machine

/-! ### Format R with its register byte in range, and without -/

theorem withR_regByte (op : Opcode) (i : Reg) (s : State) (k : Reg → State → Outcome) :
    withR op (some (regByte i)) s k = k i (s.setPc (s.pc + 2)) := by
  rw [withR, nextReg_regByte, State.opcodeFetched_pc, pc_add_two]
  rfl

theorem withR_of_operandFault (op : Opcode) (r : Operand) (f : Fault) (v : Word) (s : State) (k : Reg → State → Outcome)
    (h : operandFault s.pc 1 [r] = some (f, v)) : withR op r s k = .next (s.endsAt v (.faulted ⟨s.siteOf op, f⟩)) :=
  nextReg_opcodeFetched_of_operandFault (s.siteOf op) r f v s k h

/-! ### JMP -/

theorem execJmp_regByte (r : Reg) (s : State) :
    execJmp (some (regByte r)) s = .next (s.endsAt (s.readReg r) .continued) :=
  withR_regByte .jmp r s _

theorem execJmp_of_operandFault (r : Operand) (f : Fault) (v : Word) (s : State) (h : operandFault s.pc 1 [r] = some (f, v)) :
    execJmp r s = .next (s.endsAt v (.faulted ⟨s.siteOf .jmp, f⟩)) :=
  withR_of_operandFault .jmp r f v s _ h

/-- Settles O39: the decoding, then JMP's two ends. -/
theorem jmpLoadsTheRegisterIntoPc : Obligations.JmpLoadsTheRegisterIntoPc :=
  ⟨fun _ _ => rfl, fun s r => execJmp_regByte r s, fun s r f v => execJmp_of_operandFault r f v s⟩

/-! ### JMPB: the register is added to the `pc` after the instruction, or subtracted from it -/

theorem execJmpb_regByte_of_referenceAdd (r : Reg) (s : State) (hm : s.params.jmpbMode = .referenceAdd) :
    execJmpb (some (regByte r)) s = .next (s.endsAt (s.pc + 2 + s.readReg r) .continued) := by
  rw [execJmpb, withR_regByte]
  simp only [State.setPc_params, hm, jumpForward_eq, continueStep_eq]
  rfl

theorem execJmpb_regByte_of_correctedSubtract (r : Reg) (s : State) (hm : s.params.jmpbMode = .correctedSubtract) :
    execJmpb (some (regByte r)) s = .next (s.endsAt (s.pc + 2 - s.readReg r) .continued) := by
  rw [execJmpb, withR_regByte]
  simp only [State.setPc_params, hm, jumpBackward_eq, continueStep_eq]
  rfl

theorem execJmpb_of_operandFault (r : Operand) (f : Fault) (v : Word) (s : State) (h : operandFault s.pc 1 [r] = some (f, v)) :
    execJmpb r s = .next (s.endsAt v (.faulted ⟨s.siteOf .jmpb, f⟩)) :=
  withR_of_operandFault .jmpb r f v s _ h

/-- Settles O41: the decoding under both code settings, then JMPB's end in each mode and its operand fault. -/
theorem jmpbFollowsItsMode : Obligations.JmpbFollowsItsMode :=
  ⟨fun _ => ⟨rfl, rfl⟩, fun s r => execJmpb_regByte_of_referenceAdd r s,
    fun s r => execJmpb_regByte_of_correctedSubtract r s, fun s r f v => execJmpb_of_operandFault r f v s⟩

end Sys2Proof.Proofs
end

section
/-! The comparisons and JMPE (spec/44_compare.md R77 to R84): the ends of format RRP, the family's law, and JMPE's paths. -/

namespace Sys2Proof.Proofs

open Sys2Proof.Machine

/-! ### Format RRP with both register bytes in range, and without -/

theorem withRRP_regByte (op : Opcode) (i1 i2 : Reg) (p : Byte) (s : State) (k : Reg → Reg → State → Outcome) :
    withRRP op (some (regByte i1)) (some (regByte i2)) (some p) s k = k i1 i2 (s.setPc (s.pc + 4)) := by
  simp only [withRRP, nextReg_regByte, nextByte_some, State.setPc_pc, State.opcodeFetched_pc, pc_add_four]
  rfl

/-- The two register operands are the bytes 1 and 2 of the instruction, checked one after the other and both before the padding
byte (spec/40_engine.md R54, R57). -/
theorem withRRP_of_operandFault (op : Opcode) (r1 r2 p : Operand) (f : Fault) (v : Word) (s : State)
    (k : Reg → Reg → State → Outcome) (h1 : operandFault s.pc 1 [r1, r2] = some (f, v)) :
    withRRP op r1 r2 p s k = .next (s.endsAt v (.faulted ⟨s.siteOf op, f⟩)) := by
  rw [withRRP]
  rcases nextReg_of_operandFault_cons (s.siteOf op) s.pc 1 r1 [r2] f v s.opcodeFetched _ rfl h1 with
    hfault | ⟨i1, rfl, h2⟩
  · exact hfault
  rw [nextReg_regByte]
  have hpc2 : s.pc + 1 + 1 = s.pc + BitVec.ofNat 32 2 := pc_add_two s.pc
  rcases nextReg_of_operandFault_cons (s.siteOf op) s.pc 2 r2 [] f v (s.setPc (s.pc + 1 + 1)) _ hpc2 h2 with
    hfault | ⟨i2, -, hnone⟩
  · exact hfault
  · simp at hnone

/-! ### The family's law (spec/44_compare.md R77) -/

theorem compareRegs_regByte (op : Opcode) (rel : Word → Word → Bool) (r1 r2 : Reg) (p : Byte) (s : State) :
    compareRegs op rel (some (regByte r1)) (some (regByte r2)) (some p) s =
      .next ((s.setEqualFlag (rel (s.readReg r1) (s.readReg r2))).endsAt (s.pc + 4) .continued) := by
  rw [compareRegs, withRRP_regByte]
  rfl

/-- The three ends of a comparison whose relation on words is `P` of their signed values: it completes with the truth of `P` in
`equal_flag`, or takes a register operand's fault, or finds no padding byte. -/
theorem compareRegs_ends (op : Opcode) (rel : Word → Word → Bool) (P : Int → Int → Prop)
    (hrel : ∀ a b, rel a b = true ↔ P (s32 a) (s32 b)) :
    (∀ (s : State) (r1 r2 : Reg) (p : Byte), ∃ flag : Bool, (flag = true ↔ P (s32 (s.readReg r1)) (s32 (s.readReg r2))) ∧
      compareRegs op rel (some (regByte r1)) (some (regByte r2)) (some p) s =
        .next ((s.setEqualFlag flag).endsAt (s.pc + 4) .continued)) ∧
    (∀ (s : State) (r1 r2 p : Operand) (f : Fault) (v : Word), operandFault s.pc 1 [r1, r2] = some (f, v) →
      compareRegs op rel r1 r2 p s = .next (s.endsAt v (.faulted ⟨s.siteOf op, f⟩))) ∧
    (∀ (s : State) (r1 r2 : Reg), compareRegs op rel (some (regByte r1)) (some (regByte r2)) none s =
      .next (s.endsAt (s.pc + 3) (.faulted ⟨s.siteOf op, .truncatedInstruction (s.pc + 3)⟩))) :=
  ⟨fun s r1 r2 p => ⟨rel (s.readReg r1) (s.readReg r2), hrel _ _, compareRegs_regByte op rel r1 r2 p s⟩,
    fun s r1 r2 p f v h => withRRP_of_operandFault op r1 r2 p f v s _ h,
    fun s r1 r2 => withRRP_padding_missing op r1 r2 s _⟩

/-- Settles O42: the decoding, then the family's law for equality. -/
theorem eqSetsFlagOnEquality : Obligations.EqSetsFlagOnEquality :=
  ⟨fun _ _ => rfl, compareRegs_ends .eq relEq (· = ·) fun _ _ => decide_eq_true_iff⟩

/-- Settles O43: the decoding, then the family's law for inequality. -/
theorem neqSetsFlagOnInequality : Obligations.NeqSetsFlagOnInequality :=
  ⟨fun _ _ => rfl, compareRegs_ends .neq relNeq (· ≠ ·) fun _ _ => decide_eq_true_iff⟩

/-- Settles O44: the decoding, then the family's law for greater. -/
theorem gtSetsFlagOnSignedGreater : Obligations.GtSetsFlagOnSignedGreater :=
  ⟨fun _ _ => rfl, compareRegs_ends .gt relGt (· > ·) fun _ _ => decide_eq_true_iff⟩

/-- Settles O45: the decoding, then the family's law for greater or equal. -/
theorem gteSetsFlagOnSignedGreaterOrEqual : Obligations.GteSetsFlagOnSignedGreaterOrEqual :=
  ⟨fun _ _ => rfl, compareRegs_ends .gte relGte (· ≥ ·) fun _ _ => decide_eq_true_iff⟩

/-- Settles O46: the decoding, then the family's law for less. -/
theorem ltSetsFlagOnSignedLess : Obligations.LtSetsFlagOnSignedLess :=
  ⟨fun _ _ => rfl, compareRegs_ends .lt relLt (· < ·) fun _ _ => decide_eq_true_iff⟩

/-- Settles O47: the decoding, then the family's law for less or equal. -/
theorem lteSetsFlagOnSignedLessOrEqual : Obligations.LteSetsFlagOnSignedLessOrEqual :=
  ⟨fun _ _ => rfl, compareRegs_ends .lte relLte (· ≤ ·) fun _ _ => decide_eq_true_iff⟩

/-! ### JMPE: format R wherever it consumes its operand (spec/44_compare.md R84) -/

theorem execJmpe_of_flag (r : Operand) (s : State) (hf : s.equalFlag = true) :
    execJmpe r s = withR .jmpe r s fun i s' => continueStep (s'.setPc (s'.readReg i)) :=
  if_pos hf

theorem execJmpe_of_referenceNoConsume (r : Operand) (s : State) (hf : s.equalFlag = false)
    (hm : s.params.jmpeFalseMode = .referenceNoConsume) : execJmpe r s = .next (s.endsAt (s.pc + 1) .continued) := by
  simp only [execJmpe, hf, hm]
  rfl

theorem execJmpe_of_correctedConsume (r : Operand) (s : State) (hf : s.equalFlag = false)
    (hm : s.params.jmpeFalseMode = .correctedConsume) : execJmpe r s = withR .jmpe r s fun _ s' => continueStep s' := by
  simp only [execJmpe, hf, hm]
  rfl

theorem execJmpe_regByte_of_flag (r : Reg) (s : State) (hf : s.equalFlag = true) :
    execJmpe (some (regByte r)) s = .next (s.endsAt (s.readReg r) .continued) := by
  rw [execJmpe_of_flag _ s hf, withR_regByte]
  rfl

theorem execJmpe_regByte_of_correctedConsume (r : Reg) (s : State) (hf : s.equalFlag = false)
    (hm : s.params.jmpeFalseMode = .correctedConsume) :
    execJmpe (some (regByte r)) s = .next (s.endsAt (s.pc + 2) .continued) := by
  rw [execJmpe_of_correctedConsume _ s hf hm, withR_regByte]
  rfl

/-- The flag decides which path consumes the operand; on either the fault is format R's. -/
theorem execJmpe_of_operandFault (r : Operand) (f : Fault) (v : Word) (s : State)
    (hc : s.equalFlag = true ∨ s.params.jmpeFalseMode = .correctedConsume) (h : operandFault s.pc 1 [r] = some (f, v)) :
    execJmpe r s = .next (s.endsAt v (.faulted ⟨s.siteOf .jmpe, f⟩)) := by
  cases hf : s.equalFlag with
  | true =>
    rw [execJmpe_of_flag r s hf]
    exact withR_of_operandFault .jmpe r f v s _ h
  | false =>
    have hm : s.params.jmpeFalseMode = .correctedConsume := hc.resolve_left (by simp [hf])
    rw [execJmpe_of_correctedConsume r s hf hm]
    exact withR_of_operandFault .jmpe r f v s _ h

/-- Settles O48: the decoding, then JMPE's end on each path and its operand fault. -/
theorem jmpeFollowsFlagAndMode : Obligations.JmpeFollowsFlagAndMode :=
  ⟨fun _ _ => rfl, fun s r => execJmpe_regByte_of_flag r s, fun s r => execJmpe_of_referenceNoConsume r s,
    fun s r => execJmpe_regByte_of_correctedConsume r s, fun s r f v => execJmpe_of_operandFault r f v s⟩

end Sys2Proof.Proofs
end

section
/-! HLT, NOP and ILLEGAL (spec/45_control.md R85 to R87): none has an operand to check, so each has one end. -/

namespace Sys2Proof.Proofs

open Sys2Proof.Machine

/-- Settles O49: the decoding, then HLT's one end. -/
theorem hltHaltsAfterItsByte : Obligations.HltHaltsAfterItsByte :=
  ⟨fun _ _ => rfl, fun s => execHlt_next s⟩

/-- Settles O50: the decoding, then NOP's one end, which its three skipped bytes do not enter. -/
theorem nopAdvancesFourBytes : Obligations.NopAdvancesFourBytes :=
  ⟨fun _ _ => rfl, fun s s1 s2 s3 => execNop_next s s1 s2 s3⟩

/-- Settles O51: every byte from 18 on decodes to ILLEGAL, whose one end is the fault of code 1. -/
theorem illegalRaisesInvalidOpcode : Obligations.IllegalRaisesInvalidOpcode :=
  ⟨illegalBytesDecodeToIllegal, fun s b0 => execIllegal_next s b0, rfl⟩

end Sys2Proof.Proofs
end

section
/-! ALOC (spec/46_heap.md R88): the growth is checked for its sign, then against `HEAP_CAPACITY`, after format R's operand. -/

namespace Sys2Proof.Proofs

open Sys2Proof.Machine

/-- spec/10_state.md R22. -/
theorem heapByteAt_eq_some_zero_of_lt (s : State) (x : Nat) (h : x < s.heapLen) : s.heapByteAt x = some 0 := if_pos h

/-! ### ALOC's ends -/

theorem execAloc_regByte_of_neg (r : Reg) (s : State) (hneg : s32 (s.readReg r) < 0) :
    execAloc (some (regByte r)) s =
      .next (s.endsAt (s.pc + 2) (.faulted ⟨s.siteOf .aloc, .negativeAllocation (s32 (s.readReg r))⟩)) := by
  rw [execAloc, withR_regByte]
  exact if_pos hneg

theorem execAloc_regByte_of_exceeds (r : Reg) (s : State) (hnonneg : 0 ≤ s32 (s.readReg r))
    (hover : (s.params.heapCapacity : Int) < s.heapLen + s32 (s.readReg r)) :
    execAloc (some (regByte r)) s =
      .next (s.endsAt (s.pc + 2) (.faulted ⟨s.siteOf .aloc, .heapExhausted (s32 (s.readReg r))⟩)) := by
  have hover' : s.params.heapCapacity < s.heapLen + (s32 (s.readReg r)).toNat := by omega
  rw [execAloc, withR_regByte]
  exact (if_neg (not_lt.mpr hnonneg)).trans (if_pos hover')

/-- A register whose signed value is a natural number passes the sign check. -/
theorem execAloc_regByte_of_fits (r : Reg) (g : Nat) (s : State) (hg : s32 (s.readReg r) = g)
    (hfits : s.heapLen + g ≤ s.params.heapCapacity) :
    execAloc (some (regByte r)) s = .next ((s.setHeapLen (s.heapLen + g)).endsAt (s.pc + 2) .continued) := by
  have hread : s32 ((s.setPc (s.pc + 2)).readReg r) = g := hg
  rw [execAloc, withR_regByte]
  simp only [hread, Int.toNat_natCast]
  exact (if_neg (by omega)).trans (if_neg (not_lt.mpr hfits))

theorem execAloc_of_operandFault (r : Operand) (f : Fault) (v : Word) (s : State) (h : operandFault s.pc 1 [r] = some (f, v)) :
    execAloc r s = .next (s.endsAt v (.faulted ⟨s.siteOf .aloc, f⟩)) :=
  withR_of_operandFault .aloc r f v s _ h

/-- Settles O52: the decoding, then ALOC's ends; below the new `heap_len` every heap byte reads as zero. -/
theorem alocGrowsTheHeapOrFaults : Obligations.AlocGrowsTheHeapOrFaults :=
  ⟨fun _ _ => rfl,
    fun s r g hg hfits => ⟨execAloc_regByte_of_fits r g s hg hfits, fun x hx => heapByteAt_eq_some_zero_of_lt _ x hx⟩,
    fun s r => execAloc_regByte_of_neg r s,
    fun s r => execAloc_regByte_of_exceeds r s,
    fun s r f v => execAloc_of_operandFault r f v s⟩

end Sys2Proof.Proofs
end

section
/-! Decode and encode agree (spec/30_encoding.md R37 to R43): in one direction byte by byte for every complete instruction, in
the other from what the decoder takes of the stream. -/

namespace Sys2Proof.Proofs

open Config (RelJumpCodes)

/-! ### Decoding what was encoded -/

/-- Settles O3: an instruction of each format with all its bytes there; the two relative jumps alone look at `REL_JUMP_CODES`,
LOAD alone assembles an immediate. -/
theorem decodeOfEncodeIsTheInstruction : Obligations.DecodeOfEncodeIsTheInstruction := by
  intro codes i rest hi
  cases i with
  | load r imm =>
    obtain ⟨⟨b, rfl⟩, v, rfl⟩ : (∃ b, r = some b) ∧ ∃ v, imm = some v := by
      simpa [Instr.complete, Option.isSome_iff_exists] using hi
    exact congrArg (fun w => Except.ok (Instr.load (some b) (some w))) (bigEndian16_bytes v)
  | add r1 r2 r3 | sub r1 r2 r3 | mul r1 r2 r3 | div r1 r2 r3 | eq r1 r2 r3 | neq r1 r2 r3 | gte r1 r2 r3 | lte r1 r2 r3
  | lt r1 r2 r3 | gt r1 r2 r3 | nop r1 r2 r3 =>
    obtain ⟨⟨⟨b1, rfl⟩, b2, rfl⟩, b3, rfl⟩ : ((∃ b, r1 = some b) ∧ ∃ b, r2 = some b) ∧ ∃ b, r3 = some b := by
      simpa [Instr.complete, Option.isSome_iff_exists] using hi
    rfl
  | jmpb r | jmpf r =>
    obtain ⟨b, rfl⟩ := Option.isSome_iff_exists.mp hi
    cases codes <;> rfl
  | jmp r | jmpe r | aloc r =>
    obtain ⟨b, rfl⟩ := Option.isSome_iff_exists.mp hi
    rfl
  | hlt => rfl
  | illegal b0 => exact illegalBytesDecodeToIllegal codes b0 rest (of_decide_eq_true hi)

/-! ### What the decoder takes of the stream -/

theorem opcodeByte_of_opcode_ne_illegal (codes : RelJumpCodes) (i : Instr) (h : i.opcode ≠ .illegal) :
    i.opcodeByte codes = i.opcode.toByte codes := by
  cases i with
  | illegal b0 => exact absurd rfl h
  | _ => rfl

theorem eq_illegal_of_decode_cons (codes : RelJumpCodes) (b0 : Byte) (bs : List Byte) (i : Instr)
    (h : decode codes (b0 :: bs) = .ok i) (hop : i.opcode = .illegal) : i = .illegal b0 := by
  rw [decode_cons_of_fromByte_illegal codes b0 bs (by rw [← decode_cons_opcode codes b0 bs i h, hop])] at h
  exact (Except.ok.inj h).symm

/-- The opcode byte of a decoded instruction is the byte fetched (log entry 10). -/
theorem opcodeByte_of_decode_cons (codes : RelJumpCodes) (b0 : Byte) (bs : List Byte) (i : Instr)
    (h : decode codes (b0 :: bs) = .ok i) : i.opcodeByte codes = b0 := by
  by_cases hop : i.opcode = .illegal
  · rw [eq_illegal_of_decode_cons codes b0 bs i h hop]
    rfl
  · have hfrom := decode_cons_opcode codes b0 bs i h
    have hlt : b0.toNat < 18 := by
      by_contra hge
      exact hop (hfrom.trans (fromByte_of_le codes b0 (not_lt.mp hge)))
    rw [opcodeByte_of_opcode_ne_illegal codes i hop, hfrom, toByte_fromByte_of_lt codes b0 hlt]

theorem toList_getElem?_zero_prefix (bs : List Byte) : bs[0]?.toList <+: bs := by
  cases bs with
  | nil => exact List.nil_prefix
  | cons b bs => exact ⟨bs, rfl⟩

theorem toList_getElem?_zero_one_two_prefix (bs : List Byte) : bs[0]?.toList ++ bs[1]?.toList ++ bs[2]?.toList <+: bs := by
  match bs with
  | [] | [_] | [_, _] => exact List.prefix_refl _
  | _ :: _ :: _ :: bs => exact ⟨bs, rfl⟩

theorem bytes_bigEndian16 (hi lo : Byte) : ImmOperand.bytes (some (bigEndian16 hi lo)) = [hi, lo] := by
  have hhi : (bigEndian16 hi lo).extractLsb' 8 8 = hi := by
    apply BitVec.eq_of_toNat_eq
    rw [BitVec.extractLsb'_toNat, bigEndian16_toNat, Nat.shiftRight_eq_div_pow]
    omega
  have hlo : (bigEndian16 hi lo).extractLsb' 0 8 = lo := by
    apply BitVec.eq_of_toNat_eq
    rw [BitVec.extractLsb'_toNat, bigEndian16_toNat, Nat.shiftRight_zero]
    omega
  rw [ImmOperand.bytes, hhi, hlo]

theorem toList_immAt_prefix (bs : List Byte) : bs[0]?.toList ++ ImmOperand.bytes (immAt bs 1) <+: bs := by
  match bs with
  | [] => exact List.nil_prefix
  | [_] => exact List.prefix_refl _
  | [_, hi] => exact ⟨[hi], rfl⟩
  | _ :: hi :: lo :: bs => exact ⟨bs, by simp [immAt, bytes_bigEndian16]⟩

theorem operandBytes_prefix_of_decode_cons (codes : RelJumpCodes) (b0 : Byte) (bs : List Byte) (i : Instr)
    (h : decode codes (b0 :: bs) = .ok i) : i.operandBytes <+: bs := by
  simp only [decode, Except.ok.injEq] at h
  subst h
  split <;> simp only [Instr.operandBytes, List.nil_prefix, toList_immAt_prefix, toList_getElem?_zero_prefix,
    toList_getElem?_zero_one_two_prefix]

/-- Settles O4: the opcode byte, then the operand bytes that stand before the rest. -/
theorem decodedBytesAreTheEncoding : Obligations.DecodedBytesAreTheEncoding := by
  intro codes bs i h _
  cases bs with
  | nil => cases h
  | cons b0 bs =>
    obtain ⟨rest, hrest⟩ := operandBytes_prefix_of_decode_cons codes b0 bs i h
    exact ⟨rest, by rw [encode, opcodeByte_of_decode_cons codes b0 bs i h, List.cons_append, hrest]⟩

/-! ### The table and the words written out -/

/-- Settles O5: each word's opcode byte picks its format. -/
theorem writtenOutWordsDecode : Obligations.WrittenOutWordsDecode :=
  ⟨rfl, rfl, rfl, rfl, rfl, rfl, rfl, rfl⟩

/-- `REL_JUMP_CODES` is looked at for the bytes 7 and 8 alone. -/
theorem fromByte_swapped_eq_doc (b : Byte) (h7 : b ≠ 7) (h8 : b ≠ 8) : fromByte .swapped b = fromByte .doc b := by
  have h7' : b.toNat ≠ 7 := fun h => h7 (BitVec.eq_of_toNat_eq h)
  have h8' : b.toNat ≠ 8 := fun h => h8 (BitVec.eq_of_toNat_eq h)
  unfold fromByte
  split <;> first | contradiction | rfl

/-- Settles O6. -/
theorem opcodeMapIsTheTable : Obligations.OpcodeMapIsTheTable :=
  ⟨by decide, rfl, rfl, fromByte_swapped_eq_doc, fromByte_of_le⟩

end Sys2Proof.Proofs
end

section
/-! JMPF (spec/43_jump.md R75), and JMPB where it does the same. -/

namespace Sys2Proof.Proofs

open Sys2Proof.Machine

theorem execJmpf_regByte (r : Reg) (s : State) :
    execJmpf (some (regByte r)) s = .next (s.endsAt (s.pc + 2 + s.readReg r) .continued) := by
  rw [execJmpf, withR_regByte]
  simp only [jumpForward_eq, continueStep_eq]
  rfl

theorem execJmpf_of_operandFault (r : Operand) (f : Fault) (v : Word) (s : State) (h : operandFault s.pc 1 [r] = some (f, v)) :
    execJmpf r s = .next (s.endsAt v (.faulted ⟨s.siteOf .jmpf, f⟩)) :=
  withR_of_operandFault .jmpf r f v s _ h

/-- Settles O40: the decoding under both code settings, then JMPF's two ends. -/
theorem jmpfAddsToThePcAfterIt : Obligations.JmpfAddsToThePcAfterIt :=
  ⟨fun _ => ⟨rfl, rfl⟩, fun s r => execJmpf_regByte r s, fun s r f v => execJmpf_of_operandFault r f v s⟩

/-- Settles O32: both add the register to the `pc` after the instruction. -/
theorem relativeJumpsAgreeUnderReferenceAdd : Obligations.RelativeJumpsAgreeUnderReferenceAdd := fun s r hm =>
  ⟨_, execJmpb_regByte_of_referenceAdd r s hm, execJmpf_regByte r s⟩

end Sys2Proof.Proofs
end

section
/-! How an instruction ends, said once for all of them: what it writes besides `pc`, where it leaves `pc`, and the outcome it
reports. `exec_eq_of_ends` and `exists_ends` tie the relation to `exec`. -/

namespace Sys2Proof.Proofs

open Sys2Proof.Machine

/-! ### What an instruction writes besides `pc` -/

/-- A change of each field that an instruction writes, `none` where it leaves the field. -/
structure Writes where
  reg : Option (Reg × Word) := none
  equalFlag : Option Bool := none
  remainder : Option Word := none
  heapLen : Option Nat := none

def Writes.apply (w : Writes) (s : State) : State :=
  { s with
    regs := w.reg.elim s.regs fun rv => s.regs.set rv.1.val rv.2
    equalFlag := w.equalFlag.getD s.equalFlag
    remainder := w.remainder.getD s.remainder
    heapLen := w.heapLen.getD s.heapLen }

@[simp] theorem endsAt_report_eq_some_iff (s : State) (v : Word) (o o' : StepOutcome) :
    (s.endsAt v o).report = some o' ↔ o = o' :=
  Option.some_inj

/-! ### The register operands -/

/-- The operand bytes that name a register, in stream order (spec/30_encoding.md R39). -/
def regOperands : Instr → List Operand
  | .load r _ | .jmp r | .jmpb r | .jmpf r | .jmpe r | .aloc r => [r]
  | .add r1 r2 r3 | .sub r1 r2 r3 | .mul r1 r2 r3 | .div r1 r2 r3 => [r1, r2, r3]
  | .eq r1 r2 _ | .neq r1 r2 _ | .gte r1 r2 _ | .lte r1 r2 _ | .lt r1 r2 _ | .gt r1 r2 _ => [r1, r2]
  | .hlt | .nop _ _ _ | .illegal _ => []

/-- JMPE consumes its operand on a true flag, or in the corrected mode (spec/44_compare.md R84); every other instruction
always does. -/
def ConsumesOperands (s : State) (i : Instr) : Prop :=
  i.opcode = .jmpe → s.equalFlag = true ∨ s.params.jmpeFalseMode = .correctedConsume

/-- Where no register operand faults, each names a register. -/
theorem forall_regByte_of_operandFault_eq_none (a : Word) (k : Nat) (os : List Operand) (h : operandFault a k os = none) :
    ∀ o ∈ os, ∃ r, o = some (regByte r) := by
  induction os generalizing k with
  | nil => simp
  | cons o os ih =>
    rcases o with _ | b
    · simp at h
    · rcases regByte_or_out_of_range b with ⟨r, rfl⟩ | hb
      · rw [operandFault_regByte_cons] at h
        exact List.forall_mem_cons.mpr ⟨⟨r, rfl⟩, ih (k + 1) h⟩
      · simp [operandFault_out_of_range_cons a k b os hb] at h

/-- The register operand that faults is the first, in stream order, that is not there or is out of range. -/
theorem operandFault_eq_some (a : Word) (k : Nat) (os : List Operand) (f : Fault) (v : Word)
    (h : operandFault a k os = some (f, v)) :
    ∃ j, (∀ n < j, ∃ b, os[n]? = some (some b)) ∧
      ((os[j]? = some none ∧ f = .truncatedInstruction (a + BitVec.ofNat 32 (k + j)) ∧ v = a + BitVec.ofNat 32 (k + j)) ∨
        ∃ b, os[j]? = some (some b) ∧ 32 ≤ b.toNat ∧ f = .registerIndexOutOfRange b (a + BitVec.ofNat 32 (k + j)) ∧
          v = a + BitVec.ofNat 32 (k + j) + 1) := by
  induction os generalizing k with
  | nil => simp at h
  | cons o os ih =>
    rcases o with _ | b
    · rw [operandFault_none_cons] at h
      cases h
      exact ⟨0, by simp, .inl ⟨rfl, rfl, rfl⟩⟩
    · rcases regByte_or_out_of_range b with ⟨r, rfl⟩ | hb
      · rw [operandFault_regByte_cons] at h
        obtain ⟨j, hbefore, hj⟩ := ih (k + 1) h
        refine ⟨j + 1, fun n hn => ?_, ?_⟩
        · cases n with
          | zero => exact ⟨regByte r, rfl⟩
          | succ n => exact hbefore n (by omega)
        · rw [Nat.add_assoc k 1 j, Nat.add_comm 1 j] at hj
          exact hj
      · rw [operandFault_out_of_range_cons a k b os hb] at h
        cases h
        refine ⟨0, by simp, .inr ⟨b, rfl, hb, rfl, ?_⟩⟩
        rw [BitVec.ofNat_add, ← BitVec.add_assoc]
        rfl

theorem opcode_ne_of_operandFault_regOperands (a : Word) (k : Nat) (i : Instr) (fv : Fault × Word)
    (h : operandFault a k (regOperands i) = some fv) : i.opcode ≠ .hlt ∧ i.opcode ≠ .nop ∧ i.opcode ≠ .illegal := by
  cases i with
  | hlt | nop | illegal => simp [regOperands] at h
  | _ => simp [Instr.opcode]

/-! ### The two families -/

/-- `i` is ADD, SUB or MUL with these operands, `g` the operation on the exact values (spec/42_arith.md R69). -/
inductive Arithmetic : Instr → (Int → Int → Int) → Operand → Operand → Operand → Prop
  | add (r1 r2 r3) : Arithmetic (.add r1 r2 r3) (· + ·) r1 r2 r3
  | sub (r1 r2 r3) : Arithmetic (.sub r1 r2 r3) (· - ·) r1 r2 r3
  | mul (r1 r2 r3) : Arithmetic (.mul r1 r2 r3) (· * ·) r1 r2 r3

theorem Arithmetic.exec_eq {i : Instr} {g : Int → Int → Int} {r1 r2 r3 : Operand} (h : Arithmetic i g r1 r2 r3) (s : State) :
    exec i s = arith i.opcode g r1 r2 r3 s := by
  cases h <;> rfl

/-- `i` is a comparison with these operands, `rel` its relation (spec/44_compare.md R77 to R83). -/
inductive Comparison : Instr → (Word → Word → Bool) → Operand → Operand → Operand → Prop
  | eq (r1 r2 p) : Comparison (.eq r1 r2 p) relEq r1 r2 p
  | neq (r1 r2 p) : Comparison (.neq r1 r2 p) relNeq r1 r2 p
  | gt (r1 r2 p) : Comparison (.gt r1 r2 p) relGt r1 r2 p
  | gte (r1 r2 p) : Comparison (.gte r1 r2 p) relGte r1 r2 p
  | lt (r1 r2 p) : Comparison (.lt r1 r2 p) relLt r1 r2 p
  | lte (r1 r2 p) : Comparison (.lte r1 r2 p) relLte r1 r2 p

theorem Comparison.exec_eq {i : Instr} {rel : Word → Word → Bool} {r1 r2 p : Operand} (h : Comparison i rel r1 r2 p) (s : State) :
    exec i s = compareRegs i.opcode rel r1 r2 p s := by
  cases h <;> rfl

theorem Comparison.opcode_mem {i : Instr} {rel : Word → Word → Bool} {r1 r2 p : Operand} (h : Comparison i rel r1 r2 p) :
    i.opcode ∈ [Opcode.eq, .neq, .gt, .gte, .lt, .lte] := by
  cases h <;> simp [Instr.opcode]

/-- The site of an instruction other than ILLEGAL. -/
theorem siteOf_opcode (s : State) (i : Instr) (h : i.opcode ≠ .illegal) :
    s.siteOf i.opcode = ⟨s.pc, i.opcodeByte s.params.relJumpCodes⟩ := by
  rw [opcodeByte_of_opcode_ne_illegal _ i h]
  rfl

/-! ### The ends -/

/-- `i` faults at `s` with `f` and leaves `pc` at `v`: one constructor per `raise` of the rules (spec/60_exceptions.md R90). -/
inductive Faults (s : State) : Instr → Fault → Word → Prop
  | operand (i f v) (hc : ConsumesOperands s i) (h : operandFault s.pc 1 (regOperands i) = some (f, v)) : Faults s i f v
  | immediate (r) : Faults s (.load (some (regByte r)) none) (.truncatedInstruction (s.pc + 2)) (s.pc + 2)
  | padding (i rel r1 r2) (h : Comparison i rel (some (regByte r1)) (some (regByte r2)) none) :
      Faults s i (.truncatedInstruction (s.pc + 3)) (s.pc + 3)
  | divideByZero (r1 r2 r3) (h : s32 (s.readReg r2) = 0) :
      Faults s (.div (some (regByte r1)) (some (regByte r2)) (some (regByte r3))) (.divideByZero r2) (s.pc + 4)
  | negativeAllocation (r) (h : s32 (s.readReg r) < 0) :
      Faults s (.aloc (some (regByte r))) (.negativeAllocation (s32 (s.readReg r))) (s.pc + 2)
  | heapExhausted (r) (h0 : 0 ≤ s32 (s.readReg r)) (h : (s.params.heapCapacity : Int) < s.heapLen + s32 (s.readReg r)) :
      Faults s (.aloc (some (regByte r))) (.heapExhausted (s32 (s.readReg r))) (s.pc + 2)
  | invalidOpcode (b0) : Faults s (.illegal b0) .invalidOpcode (s.pc + 1)

/-- `i` completes at `s`, changing `pc` alone, to `v`, with outcome `o` (spec/43_jump.md, spec/44_compare.md R84,
spec/45_control.md). -/
inductive Moves (s : State) : Instr → Word → StepOutcome → Prop
  | hlt : Moves s .hlt (s.pc + 1) .halted
  | nop (s1 s2 s3) : Moves s (.nop s1 s2 s3) (s.pc + 4) .continued
  | jmp (r) : Moves s (.jmp (some (regByte r))) (s.readReg r) .continued
  | jmpf (r) : Moves s (.jmpf (some (regByte r))) (s.pc + 2 + s.readReg r) .continued
  | jmpbAdd (r) (hm : s.params.jmpbMode = .referenceAdd) :
      Moves s (.jmpb (some (regByte r))) (s.pc + 2 + s.readReg r) .continued
  | jmpbSubtract (r) (hm : s.params.jmpbMode = .correctedSubtract) :
      Moves s (.jmpb (some (regByte r))) (s.pc + 2 - s.readReg r) .continued
  | jmpeTaken (r) (hf : s.equalFlag = true) : Moves s (.jmpe (some (regByte r))) (s.readReg r) .continued
  | jmpeNoConsume (r) (hf : s.equalFlag = false) (hm : s.params.jmpeFalseMode = .referenceNoConsume) :
      Moves s (.jmpe r) (s.pc + 1) .continued
  | jmpeConsume (r) (hf : s.equalFlag = false) (hm : s.params.jmpeFalseMode = .correctedConsume) :
      Moves s (.jmpe (some (regByte r))) (s.pc + 2) .continued

/-- `i` completes at `s` with the writes `w`, and `pc` goes to `v`, the next instruction (spec/41_load.md, spec/42_arith.md,
spec/44_compare.md R77, spec/46_heap.md). -/
inductive Updates (s : State) : Instr → Writes → Word → Prop
  | load (r v) : Updates s (.load (some (regByte r)) (some v)) { reg := some (r, zext32 v) } (s.pc + 4)
  | arith (i g r1 r2 r3) (h : Arithmetic i g (some (regByte r1)) (some (regByte r2)) (some (regByte r3))) :
      Updates s i { reg := some (r3, wrap32 (g (s32 (s.readReg r1)) (s32 (s.readReg r2)))) } (s.pc + 4)
  | div (r1 r2 r3) (h : s32 (s.readReg r2) ≠ 0) :
      Updates s (.div (some (regByte r1)) (some (regByte r2)) (some (regByte r3)))
        { reg := some (r3, wrap32 (Int.tdiv (s32 (s.readReg r1)) (s32 (s.readReg r2))))
          remainder := some (wrap32 (s32 (s.readReg r1) - Int.tdiv (s32 (s.readReg r1)) (s32 (s.readReg r2)) * s32 (s.readReg r2))) }
        (s.pc + 4)
  | compare (i rel r1 r2 p) (h : Comparison i rel (some (regByte r1)) (some (regByte r2)) (some p)) :
      Updates s i { equalFlag := some (rel (s.readReg r1) (s.readReg r2)) } (s.pc + 4)
  | aloc (r g) (hg : s32 (s.readReg r) = (g : Nat)) (hfits : s.heapLen + g ≤ s.params.heapCapacity) :
      Updates s (.aloc (some (regByte r))) { heapLen := some (s.heapLen + g) } (s.pc + 2)

/-- How `i` ends at `s`: the writes, where `pc` goes, the outcome. A fault writes nothing (spec/60_exceptions.md R97). -/
inductive Ends (s : State) (i : Instr) : Writes → Word → StepOutcome → Prop
  | fault (f v) (h : Faults s i f v) : Ends s i {} v (.faulted ⟨⟨s.pc, i.opcodeByte s.params.relJumpCodes⟩, f⟩)
  | move (v o) (h : Moves s i v o) : Ends s i {} v o
  | update (w v) (h : Updates s i w v) : Ends s i w v .continued

/-! ### `exec` ends as the relation says -/

/-- Each format fetches its register operands before anything else it does. -/
theorem exec_of_operandFault (s : State) (i : Instr) (f : Fault) (v : Word) (hc : ConsumesOperands s i)
    (h : operandFault s.pc 1 (regOperands i) = some (f, v)) :
    exec i s = .next (s.endsAt v (.faulted ⟨⟨s.pc, i.opcodeByte s.params.relJumpCodes⟩, f⟩)) := by
  rw [← siteOf_opcode s i (opcode_ne_of_operandFault_regOperands _ _ i _ h).2.2]
  cases i with
  | load r imm => exact execLoad_of_operandFault r imm f v s h
  | add r1 r2 r3 | sub r1 r2 r3 | mul r1 r2 r3 => exact arith_of_operandFault _ _ r1 r2 r3 f v s h
  | div r1 r2 r3 => exact execDiv_of_operandFault r1 r2 r3 f v s h
  | jmp r => exact execJmp_of_operandFault r f v s h
  | jmpb r => exact execJmpb_of_operandFault r f v s h
  | jmpf r => exact execJmpf_of_operandFault r f v s h
  | eq r1 r2 p | neq r1 r2 p | gte r1 r2 p | lte r1 r2 p | lt r1 r2 p | gt r1 r2 p =>
    exact withRRP_of_operandFault _ r1 r2 p f v s _ h
  | jmpe r => exact execJmpe_of_operandFault r f v s (hc rfl) h
  | aloc r => exact execAloc_of_operandFault r f v s h
  | hlt | nop | illegal => simp [regOperands] at h

theorem exec_of_faults (s : State) (i : Instr) (f : Fault) (v : Word) (h : Faults s i f v) :
    exec i s = .next (s.endsAt v (.faulted ⟨⟨s.pc, i.opcodeByte s.params.relJumpCodes⟩, f⟩)) := by
  cases h with
  | operand _ _ _ hc h => exact exec_of_operandFault s i f v hc h
  | immediate r => exact execLoad_regByte_none r s
  | padding _ rel r1 r2 h =>
    rw [h.exec_eq, ← siteOf_opcode s i (by rintro hop; simpa [hop] using h.opcode_mem)]
    exact withRRP_padding_missing i.opcode r1 r2 s _
  | divideByZero r1 r2 r3 h => exact execDiv_regByte_of_zero r1 r2 r3 s h
  | negativeAllocation r h => exact execAloc_regByte_of_neg r s h
  | heapExhausted r h0 h => exact execAloc_regByte_of_exceeds r s h0 h
  | invalidOpcode b0 => exact execIllegal_next s b0

theorem exec_of_moves (s : State) (i : Instr) (v : Word) (o : StepOutcome) (h : Moves s i v o) :
    exec i s = .next (s.endsAt v o) := by
  cases h with
  | hlt => exact execHlt_next s
  | nop s1 s2 s3 => exact execNop_next s s1 s2 s3
  | jmp r => exact execJmp_regByte r s
  | jmpf r => exact execJmpf_regByte r s
  | jmpbAdd r hm => exact execJmpb_regByte_of_referenceAdd r s hm
  | jmpbSubtract r hm => exact execJmpb_regByte_of_correctedSubtract r s hm
  | jmpeTaken r hf => exact execJmpe_regByte_of_flag r s hf
  | jmpeNoConsume r hf hm => exact execJmpe_of_referenceNoConsume r s hf hm
  | jmpeConsume r hf hm => exact execJmpe_regByte_of_correctedConsume r s hf hm

theorem exec_of_updates (s : State) (i : Instr) (w : Writes) (v : Word) (h : Updates s i w v) :
    exec i s = .next ((w.apply s).endsAt v .continued) := by
  cases h with
  | load r imm => exact execLoad_regByte_some r imm s
  | arith _ g r1 r2 r3 h => exact (h.exec_eq s).trans (arith_regByte i.opcode g r1 r2 r3 s)
  | div r1 r2 r3 h => exact execDiv_regByte_of_ne_zero r1 r2 r3 s h
  | compare _ rel r1 r2 p h => exact (h.exec_eq s).trans (compareRegs_regByte i.opcode rel r1 r2 p s)
  | aloc r g hg hfits => exact execAloc_regByte_of_fits r g s hg hfits

theorem exec_of_ends (s : State) (i : Instr) (w : Writes) (v : Word) (o : StepOutcome) (h : Ends s i w v o) :
    exec i s = .next ((w.apply s).endsAt v o) := by
  cases h with
  | fault f _ h => exact exec_of_faults s i f v h
  | move _ _ h => exact exec_of_moves s i v o h
  | update _ _ h => exact exec_of_updates s i w v h

/-! ### Every instruction has an end -/

theorem exists_ends_arithmetic (s : State) (i : Instr) (g : Int → Int → Int) (r1 r2 r3 : Operand) (h : Arithmetic i g r1 r2 r3)
    (hregs : ∀ o ∈ [r1, r2, r3], ∃ r, o = some (regByte r)) : ∃ w v o, Ends s i w v o := by
  simp only [List.forall_mem_cons] at hregs
  obtain ⟨⟨i1, rfl⟩, ⟨i2, rfl⟩, ⟨i3, rfl⟩, -⟩ := hregs
  exact ⟨_, _, _, .update _ _ (.arith i g i1 i2 i3 h)⟩

theorem exists_ends_comparison (s : State) (i : Instr) (rel : Word → Word → Bool) (r1 r2 p : Operand)
    (h : Comparison i rel r1 r2 p) (hregs : ∀ o ∈ [r1, r2], ∃ r, o = some (regByte r)) : ∃ w v o, Ends s i w v o := by
  simp only [List.forall_mem_cons] at hregs
  obtain ⟨⟨i1, rfl⟩, ⟨i2, rfl⟩, -⟩ := hregs
  rcases p with _ | p
  · exact ⟨_, _, _, .fault _ _ (.padding i rel i1 i2 h)⟩
  · exact ⟨_, _, _, .update _ _ (.compare i rel i1 i2 p h)⟩

theorem exists_ends_aloc (s : State) (r : Reg) : ∃ w v o, Ends s (.aloc (some (regByte r))) w v o := by
  by_cases hneg : s32 (s.readReg r) < 0
  · exact ⟨_, _, _, .fault _ _ (.negativeAllocation r hneg)⟩
  obtain ⟨g, hg⟩ := Int.eq_ofNat_of_zero_le (not_lt.mp hneg)
  by_cases hfits : s.heapLen + g ≤ s.params.heapCapacity
  · exact ⟨_, _, _, .update _ _ (.aloc r g hg hfits)⟩
  · exact ⟨_, _, _, .fault _ _ (.heapExhausted r (not_lt.mp hneg) (by omega))⟩

/-- Where every register operand names a register, what is left to check is each rule's own. -/
theorem exists_ends_of_regOperands (s : State) (i : Instr) (hregs : ∀ o ∈ regOperands i, ∃ r, o = some (regByte r)) :
    ∃ w v o, Ends s i w v o := by
  cases i with
  | load r imm =>
    obtain ⟨i1, rfl⟩ := hregs r (by simp [regOperands])
    rcases imm with _ | imm
    · exact ⟨_, _, _, .fault _ _ (.immediate i1)⟩
    · exact ⟨_, _, _, .update _ _ (.load i1 imm)⟩
  | add r1 r2 r3 => exact exists_ends_arithmetic s _ _ _ _ _ (.add r1 r2 r3) hregs
  | sub r1 r2 r3 => exact exists_ends_arithmetic s _ _ _ _ _ (.sub r1 r2 r3) hregs
  | mul r1 r2 r3 => exact exists_ends_arithmetic s _ _ _ _ _ (.mul r1 r2 r3) hregs
  | div r1 r2 r3 =>
    simp only [regOperands, List.forall_mem_cons] at hregs
    obtain ⟨⟨i1, rfl⟩, ⟨i2, rfl⟩, ⟨i3, rfl⟩, -⟩ := hregs
    by_cases hd : s32 (s.readReg i2) = 0
    · exact ⟨_, _, _, .fault _ _ (.divideByZero i1 i2 i3 hd)⟩
    · exact ⟨_, _, _, .update _ _ (.div i1 i2 i3 hd)⟩
  | eq r1 r2 p => exact exists_ends_comparison s _ _ _ _ _ (.eq r1 r2 p) hregs
  | neq r1 r2 p => exact exists_ends_comparison s _ _ _ _ _ (.neq r1 r2 p) hregs
  | gte r1 r2 p => exact exists_ends_comparison s _ _ _ _ _ (.gte r1 r2 p) hregs
  | lte r1 r2 p => exact exists_ends_comparison s _ _ _ _ _ (.lte r1 r2 p) hregs
  | lt r1 r2 p => exact exists_ends_comparison s _ _ _ _ _ (.lt r1 r2 p) hregs
  | gt r1 r2 p => exact exists_ends_comparison s _ _ _ _ _ (.gt r1 r2 p) hregs
  | jmp r =>
    obtain ⟨i1, rfl⟩ := hregs r (by simp [regOperands])
    exact ⟨_, _, _, .move _ _ (.jmp i1)⟩
  | jmpf r =>
    obtain ⟨i1, rfl⟩ := hregs r (by simp [regOperands])
    exact ⟨_, _, _, .move _ _ (.jmpf i1)⟩
  | jmpb r =>
    obtain ⟨i1, rfl⟩ := hregs r (by simp [regOperands])
    cases hm : s.params.jmpbMode with
    | referenceAdd => exact ⟨_, _, _, .move _ _ (.jmpbAdd i1 hm)⟩
    | correctedSubtract => exact ⟨_, _, _, .move _ _ (.jmpbSubtract i1 hm)⟩
  | jmpe r =>
    obtain ⟨i1, rfl⟩ := hregs r (by simp [regOperands])
    cases hf : s.equalFlag with
    | true => exact ⟨_, _, _, .move _ _ (.jmpeTaken i1 hf)⟩
    | false =>
      cases hm : s.params.jmpeFalseMode with
      | referenceNoConsume => exact ⟨_, _, _, .move _ _ (.jmpeNoConsume _ hf hm)⟩
      | correctedConsume => exact ⟨_, _, _, .move _ _ (.jmpeConsume i1 hf hm)⟩
  | hlt => exact ⟨_, _, _, .move _ _ .hlt⟩
  | nop s1 s2 s3 => exact ⟨_, _, _, .move _ _ (.nop s1 s2 s3)⟩
  | aloc r =>
    obtain ⟨i1, rfl⟩ := hregs r (by simp [regOperands])
    exact exists_ends_aloc s i1
  | illegal b0 => exact ⟨_, _, _, .fault _ _ (.invalidOpcode b0)⟩

/-- The one instruction that may leave its operand alone is a false JMPE. -/
theorem exists_ends_of_not_consumesOperands (s : State) (i : Instr) (hc : ¬ConsumesOperands s i) : ∃ w v o, Ends s i w v o := by
  simp only [ConsumesOperands, Classical.not_imp, not_or, Bool.not_eq_true] at hc
  obtain ⟨hop, hf, hm⟩ := hc
  cases i with
  | jmpe r =>
    refine ⟨_, _, _, .move _ _ (.jmpeNoConsume r hf ?_)⟩
    cases hmode : s.params.jmpeFalseMode with
    | referenceNoConsume => rfl
    | correctedConsume => exact absurd hmode hm
  | _ => cases hop

theorem exists_ends (s : State) (i : Instr) : ∃ w v o, Ends s i w v o := by
  by_cases hc : ConsumesOperands s i
  · cases h : operandFault s.pc 1 (regOperands i) with
    | none => exact exists_ends_of_regOperands s i (forall_regByte_of_operandFault_eq_none s.pc 1 _ h)
    | some fv => exact ⟨_, _, _, .fault _ _ (.operand i fv.1 fv.2 hc h)⟩
  · exact exists_ends_of_not_consumesOperands s i hc

/-- Everything `exec` can do. -/
theorem ends_of_exec (s t : State) (i : Instr) (h : exec i s = .next t) :
    ∃ w v o, Ends s i w v o ∧ t = (w.apply s).endsAt v o := by
  obtain ⟨w, v, o, hends⟩ := exists_ends s i
  rw [exec_of_ends s i w v o hends] at h
  exact ⟨w, v, o, hends, (Host.Outcome.next.inj h).symm⟩

end Sys2Proof.Proofs
end

section
/-! What an instruction writes, reads and reports, read off its ends (spec/10_state.md R13, R17, R19 to R21). -/

namespace Sys2Proof.Proofs

open Sys2Proof.Machine

/-! ### What each end writes -/

theorem Moves.opcode_mem {s : State} {i : Instr} {v : Word} {o : StepOutcome} (h : Moves s i v o) :
    i.opcode ∈ [Opcode.hlt, .nop, .jmp, .jmpf, .jmpb, .jmpe] := by
  cases h <;> simp [Instr.opcode]

theorem Ends.equalFlag_isSome_iff {s : State} {i : Instr} {w : Writes} {v : Word} {o : StepOutcome} (h : Ends s i w v o) :
    w.equalFlag.isSome ↔ i.opcode ∈ [Opcode.eq, .neq, .gt, .gte, .lt, .lte] ∧ o = .continued := by
  cases h with
  | fault f _ h => simp
  | move _ _ h =>
    have hop : i.opcode ∉ [Opcode.eq, .neq, .gt, .gte, .lt, .lte] := by cases h <;> simp [Instr.opcode]
    simp [hop]
  | update _ _ h =>
    cases h with
    | compare _ rel r1 r2 p h => simp [h.opcode_mem]
    | arith _ g r1 r2 r3 h => cases h <;> simp [Instr.opcode]
    | load | div | aloc => simp [Instr.opcode]

theorem Ends.remainder_isSome_iff {s : State} {i : Instr} {w : Writes} {v : Word} {o : StepOutcome} (h : Ends s i w v o) :
    w.remainder.isSome ↔ i.opcode = .div ∧ o = .continued := by
  cases h with
  | fault f _ h => simp
  | move _ _ h =>
    have hop : i.opcode ≠ .div := fun hdiv => by simpa [hdiv] using h.opcode_mem
    simp [hop]
  | update _ _ h =>
    cases h with
    | compare _ rel r1 r2 p h => cases h <;> simp [Instr.opcode]
    | arith _ g r1 r2 r3 h => cases h <;> simp [Instr.opcode]
    | load | div | aloc => simp [Instr.opcode]

theorem Ends.reg_eq_some {s : State} {i : Instr} {w : Writes} {v : Word} {o : StepOutcome} (h : Ends s i w v o) (r : Reg)
    (x : Word) (hw : w.reg = some (r, x)) : o = .continued ∧ ((∃ imm, i = .load (some (regByte r)) imm) ∨
    ∃ r1 r2, i = .add r1 r2 (some (regByte r)) ∨ i = .sub r1 r2 (some (regByte r)) ∨
      i = .mul r1 r2 (some (regByte r)) ∨ i = .div r1 r2 (some (regByte r))) := by
  cases h with
  | fault | move => cases hw
  | update _ _ h =>
    refine ⟨rfl, ?_⟩
    cases h with
    | compare | aloc => cases hw
    | load =>
      cases hw
      exact .inl ⟨_, rfl⟩
    | arith _ g r1 r2 r3 h =>
      cases hw
      refine .inr ⟨some (regByte r1), some (regByte r2), ?_⟩
      cases h <;> simp
    | div r1 r2 r3 h =>
      cases hw
      exact .inr ⟨_, _, .inr (.inr (.inr rfl))⟩

theorem Ends.heapLen_eq_some {s : State} {i : Instr} {w : Writes} {v : Word} {o : StepOutcome} (h : Ends s i w v o) (n : Nat)
    (hw : w.heapLen = some n) : ∃ (r : Reg) (g : Nat), i = .aloc (some (regByte r)) ∧ s32 (s.readReg r) = g ∧
      n = s.heapLen + g ∧ n ≤ s.params.heapCapacity := by
  cases h with
  | fault | move => cases hw
  | update _ _ h =>
    cases h with
    | load | arith | div | compare => cases hw
    | aloc r g hg hfits =>
      cases hw
      exact ⟨r, g, rfl, hg, rfl, hfits⟩

/-- A field with its change: where one is made the old value does not matter, elsewhere the old value stays. -/
theorem getD_of_isSome_iff {α : Type} {w : Option α} {P : Prop} (h : w.isSome ↔ P) (a b : α) :
    (P → w.getD a = w.getD b) ∧ (¬P → w.getD a = a) := by
  cases w with
  | none => exact ⟨fun hP => by simpa using h.mpr hP, fun _ => rfl⟩
  | some x => exact ⟨fun _ => rfl, fun hP => absurd (h.mp rfl) hP⟩

theorem exists_reg_of_readReg_apply_ne (w : Writes) (s : State) (r : Reg) (h : (w.apply s).readReg r ≠ s.readReg r) :
    ∃ x, w.reg = some (r, x) := by
  cases hw : w.reg with
  | none => exact absurd (by simp [State.readReg, Writes.apply, hw]) h
  | some rx =>
    obtain ⟨r', x⟩ := rx
    by_cases hr : r' = r
    · exact ⟨x, by rw [hr]⟩
    · have hne : r'.val ≠ r.val := fun hv => hr (Fin.ext hv)
      exact absurd (by simp [State.readReg, Writes.apply, hw, Vector.getElem_set_ne, hne]) h

/-- Settles O21. -/
theorem onlyComparisonsWriteEqualFlag : Obligations.OnlyComparisonsWriteEqualFlag := by
  intro i s t h hop
  obtain ⟨w, v, o, hends, rfl⟩ := ends_of_exec s t i h
  exact (getD_of_isSome_iff hends.equalFlag_isSome_iff s.equalFlag s.equalFlag).2 fun hcmp => hop hcmp.1

/-- Settles O24. -/
theorem registerWritesAreTheTables : Obligations.RegisterWritesAreTheTables := by
  intro i s t r h hne
  obtain ⟨w, v, o, hends, rfl⟩ := ends_of_exec s t i h
  obtain ⟨x, hw⟩ := exists_reg_of_readReg_apply_ne w s r hne
  exact (hends.reg_eq_some r x hw).2

/-- Settles O26: the one change of `heap_len` is ALOC's, upward; every heap byte reads as zero. -/
theorem heapGrowsOnlyByAlocAndIsZero : Obligations.HeapGrowsOnlyByAlocAndIsZero := by
  refine ⟨fun i s t h => ?_, fun s x => ⟨heapByteAt_eq_some_zero_of_lt s x, heapByteAt_eq_none_of_heapLen_le s x⟩⟩
  obtain ⟨w, v, o, hends, rfl⟩ := ends_of_exec s t i h
  change s.heapLen ≤ w.heapLen.getD s.heapLen ∧ (w.heapLen.getD s.heapLen ≠ s.heapLen → ∃ r : Reg, i = .aloc (some (regByte r)) ∧
    ((w.heapLen.getD s.heapLen : Nat) : Int) = s.heapLen + s32 (s.readReg r) ∧ w.heapLen.getD s.heapLen ≤ s.params.heapCapacity)
  cases hw : w.heapLen with
  | none => exact ⟨le_rfl, fun hne => absurd rfl hne⟩
  | some n =>
    obtain ⟨r, g, hi, hg, rfl, hfits⟩ := hends.heapLen_eq_some n hw
    exact ⟨Nat.le_add_right _ _, fun _ => ⟨r, hi, by rw [hg]; rfl, hfits⟩⟩

/-! ### What each end depends on -/

/-- `u` agrees with `s` on every field that `i` may read (spec/10_state.md R13, R19, R20). -/
structure AgreesFor (i : Instr) (s u : State) : Prop where
  pc : u.pc = s.pc
  params : u.params = s.params
  heapLen : u.heapLen = s.heapLen
  regs : i.opcode ∉ [Opcode.load, .hlt, .nop, .illegal] → u.regs = s.regs
  equalFlag : i.opcode = .jmpe → u.equalFlag = s.equalFlag

theorem AgreesFor.readReg {i : Instr} {s u : State} (ha : AgreesFor i s u)
    (hop : i.opcode ∉ [Opcode.load, .hlt, .nop, .illegal]) (r : Reg) : s.readReg r = u.readReg r := by
  rw [State.readReg, State.readReg, ha.regs hop]

theorem Faults.congr {i : Instr} {s u : State} {f : Fault} {v : Word} (h : Faults s i f v) (ha : AgreesFor i s u) :
    Faults u i f v := by
  cases h with
  | operand _ _ _ hc h =>
    refine .operand i f v (fun hop => ?_) (by rwa [ha.pc])
    rw [ha.params, ha.equalFlag hop]
    exact hc hop
  | immediate r =>
    rw [← ha.pc]
    exact .immediate r
  | padding _ rel r1 r2 h =>
    rw [← ha.pc]
    exact .padding i rel r1 r2 h
  | divideByZero r1 r2 r3 h =>
    rw [← ha.pc]
    exact .divideByZero r1 r2 r3 (by rwa [← ha.readReg (by simp [Instr.opcode])])
  | negativeAllocation r h =>
    rw [ha.readReg (by simp [Instr.opcode])] at h ⊢
    rw [← ha.pc]
    exact .negativeAllocation r h
  | heapExhausted r h0 h =>
    rw [← ha.params, ← ha.heapLen] at h
    rw [ha.readReg (by simp [Instr.opcode])] at h0 h ⊢
    rw [← ha.pc]
    exact .heapExhausted r h0 h
  | invalidOpcode b0 =>
    rw [← ha.pc]
    exact .invalidOpcode b0

theorem Moves.congr {i : Instr} {s u : State} {v : Word} {o : StepOutcome} (h : Moves s i v o) (ha : AgreesFor i s u) :
    Moves u i v o := by
  cases h with
  | hlt =>
    rw [← ha.pc]
    exact .hlt
  | nop s1 s2 s3 =>
    rw [← ha.pc]
    exact .nop s1 s2 s3
  | jmp r =>
    rw [ha.readReg (by simp [Instr.opcode])]
    exact .jmp r
  | jmpf r =>
    rw [ha.readReg (by simp [Instr.opcode]), ← ha.pc]
    exact .jmpf r
  | jmpbAdd r hm =>
    rw [ha.readReg (by simp [Instr.opcode]), ← ha.pc]
    exact .jmpbAdd r (by rwa [ha.params])
  | jmpbSubtract r hm =>
    rw [ha.readReg (by simp [Instr.opcode]), ← ha.pc]
    exact .jmpbSubtract r (by rwa [ha.params])
  | jmpeTaken r hf =>
    rw [ha.readReg (by simp [Instr.opcode])]
    exact .jmpeTaken r (by rwa [ha.equalFlag rfl])
  | jmpeNoConsume r hf hm =>
    rw [← ha.pc]
    exact .jmpeNoConsume r (by rwa [ha.equalFlag rfl]) (by rwa [ha.params])
  | jmpeConsume r hf hm =>
    rw [← ha.pc]
    exact .jmpeConsume r (by rwa [ha.equalFlag rfl]) (by rwa [ha.params])

theorem Arithmetic.reads_regs {i : Instr} {g : Int → Int → Int} {r1 r2 r3 : Operand} (h : Arithmetic i g r1 r2 r3) :
    i.opcode ∉ [Opcode.load, .hlt, .nop, .illegal] := by
  cases h <;> simp [Instr.opcode]

theorem Comparison.reads_regs {i : Instr} {rel : Word → Word → Bool} {r1 r2 p : Operand} (h : Comparison i rel r1 r2 p) :
    i.opcode ∉ [Opcode.load, .hlt, .nop, .illegal] := by
  cases h <;> simp [Instr.opcode]

theorem Updates.congr {i : Instr} {s u : State} {w : Writes} {v : Word} (h : Updates s i w v) (ha : AgreesFor i s u) :
    Updates u i w v := by
  cases h with
  | load r imm =>
    rw [← ha.pc]
    exact .load r imm
  | arith _ g r1 r2 r3 h =>
    rw [← ha.pc, ha.readReg h.reads_regs, ha.readReg h.reads_regs]
    exact .arith i g r1 r2 r3 h
  | div r1 r2 r3 h =>
    have hread := ha.readReg (by simp [Instr.opcode])
    rw [hread] at h
    rw [← ha.pc, hread r1, hread r2]
    exact .div r1 r2 r3 h
  | compare _ rel r1 r2 p h =>
    rw [← ha.pc, ha.readReg h.reads_regs, ha.readReg h.reads_regs]
    exact .compare i rel r1 r2 p h
  | aloc r g hg hfits =>
    rw [← ha.params, ← ha.heapLen] at hfits
    rw [ha.readReg (by simp [Instr.opcode])] at hg
    rw [← ha.pc, ← ha.heapLen]
    exact .aloc r g hg hfits

/-- An instruction ends alike in two states that agree on what it may read. -/
theorem Ends.congr {i : Instr} {s u : State} {w : Writes} {v : Word} {o : StepOutcome} (h : Ends s i w v o)
    (ha : AgreesFor i s u) : Ends u i w v o := by
  cases h with
  | fault f _ h =>
    rw [← ha.pc, ← ha.params]
    exact .fault f v (h.congr ha)
  | move _ _ h => exact .move v o (h.congr ha)
  | update _ _ h => exact .update w v (h.congr ha)

/-- Settles O22: `remainder` is none of the fields an end depends on. -/
theorem onlyDivWritesRemainderAndNoneReadsIt : Obligations.OnlyDivWritesRemainderAndNoneReadsIt := by
  refine ⟨fun i s t h hop => ?_, fun i s t m h => ?_⟩
  · obtain ⟨w, v, o, hends, rfl⟩ := ends_of_exec s t i h
    exact (getD_of_isSome_iff hends.remainder_isSome_iff s.remainder s.remainder).2 fun hdiv => hop hdiv.1
  · obtain ⟨w, v, o, hends, rfl⟩ := ends_of_exec s t i h
    have hagrees : AgreesFor i s (s.setRemainder m) := ⟨rfl, rfl, rfl, fun _ => rfl, fun _ => rfl⟩
    rw [endsAt_report_eq_some_iff]
    exact ⟨w.remainder.getD m, exec_of_ends _ i w v o (hends.congr hagrees),
      getD_of_isSome_iff hends.remainder_isSome_iff m s.remainder⟩

/-- Settles O23: `equal_flag` is a field that JMPE's ends alone depend on. -/
theorem onlyJmpeReadsEqualFlag : Obligations.OnlyJmpeReadsEqualFlag := by
  intro i s t b hop h
  obtain ⟨w, v, o, hends, rfl⟩ := ends_of_exec s t i h
  have hagrees : AgreesFor i s (s.setEqualFlag b) := ⟨rfl, rfl, rfl, fun _ => rfl, fun hjmpe => absurd hjmpe hop⟩
  rw [endsAt_report_eq_some_iff]
  exact ⟨w.equalFlag.getD b, exec_of_ends _ i w v o (hends.congr hagrees),
    getD_of_isSome_iff hends.equalFlag_isSome_iff b s.equalFlag⟩

theorem regByte_injective {r r' : Reg} (h : regByte r = regByte r') : r = r' := by
  simpa using congrArg regOf h

theorem Ends.reg_of_load {s : State} {r : Reg} {imm : ImmOperand} {w : Writes} {v : Word}
    (h : Ends s (.load (some (regByte r)) imm) w v .continued) : ∃ x, w.reg = some (r, x) := by
  generalize hi : Instr.load (some (regByte r)) imm = i at h
  cases h with
  | move _ _ h => cases h <;> cases hi
  | update _ _ h =>
    cases h with
    | load r' imm' =>
      simp only [Instr.load.injEq, Option.some.injEq] at hi
      obtain ⟨hr, -⟩ := hi
      exact ⟨_, by rw [regByte_injective hr]⟩
    | arith _ g r1 r2 r3 h => cases h <;> cases hi
    | compare _ rel r1 r2 p h => cases h <;> cases hi
    | div | aloc => cases hi

/-- Settles O25: the registers are a field these ends do not depend on; LOAD's write sets `r` whatever stood there. -/
theorem noRegisterReadByLoadHltNopIllegal : Obligations.NoRegisterReadByLoadHltNopIllegal := by
  intro i s t regs hop h
  obtain ⟨w, v, o, hends, rfl⟩ := ends_of_exec s t i h
  have hagrees : AgreesFor i s (s.setRegs regs) := ⟨rfl, rfl, rfl, fun hreads => absurd hop hreads, fun _ => rfl⟩
  refine ⟨w.reg.elim regs fun rv => regs.set rv.1.val rv.2, exec_of_ends _ i w v o (hends.congr hagrees), ?_, ?_⟩
  · rintro r imm rfl hreport
    obtain rfl := (endsAt_report_eq_some_iff _ v o .continued).mp hreport
    obtain ⟨x, hw⟩ := hends.reg_of_load
    have hread : ((w.apply s).endsAt v .continued).readReg r = x := by simp [State.readReg, State.endsAt, Writes.apply, hw]
    rw [hread, hw]
    rfl
  · intro hnot
    cases hw : w.reg with
    | none => rfl
    | some rx =>
      obtain ⟨rfl, hinstr⟩ := hends.reg_eq_some rx.1 rx.2 hw
      rcases hinstr with ⟨imm, rfl⟩ | ⟨r1, r2, rfl | rfl | rfl | rfl⟩
      · exact absurd ⟨rfl, rfl⟩ hnot
      all_goals simp [Instr.opcode] at hop

/-! ### What each end reports, and where it leaves `pc` -/

theorem operandFault_ne_invalidOpcode (a : Word) (k : Nat) (os : List Operand) (v : Word) :
    operandFault a k os ≠ some (.invalidOpcode, v) := by
  intro h
  obtain ⟨j, -, ⟨-, hf, -⟩ | ⟨b, -, -, hf, -⟩⟩ := operandFault_eq_some a k os _ v h <;> cases hf

theorem Faults.eq_invalidOpcode_iff {s : State} {i : Instr} {f : Fault} {v : Word} (h : Faults s i f v) :
    f = .invalidOpcode ↔ i.opcode = .illegal := by
  cases h with
  | operand _ _ _ hc h =>
    have hop := (opcode_ne_of_operandFault_regOperands _ _ _ _ h).2.2
    have hf : f ≠ .invalidOpcode := by
      rintro rfl
      exact operandFault_ne_invalidOpcode _ _ _ _ h
    simp [hop, hf]
  | padding _ rel r1 r2 h => cases h <;> simp [Instr.opcode]
  | immediate | divideByZero | negativeAllocation | heapExhausted | invalidOpcode => simp [Instr.opcode]

theorem Faults.opcode_ne_hlt {s : State} {i : Instr} {f : Fault} {v : Word} (h : Faults s i f v) : i.opcode ≠ .hlt := by
  cases h with
  | operand _ _ _ hc h => exact (opcode_ne_of_operandFault_regOperands _ _ _ _ h).1
  | padding _ rel r1 r2 h => cases h <;> simp [Instr.opcode]
  | immediate | divideByZero | negativeAllocation | heapExhausted | invalidOpcode => simp [Instr.opcode]

theorem Moves.report {s : State} {i : Instr} {v : Word} {o : StepOutcome} (h : Moves s i v o) :
    (i.opcode = .hlt ∧ o = .halted) ∨ (i.opcode ≠ .hlt ∧ o = .continued) := by
  cases h <;> simp [Instr.opcode]

theorem Updates.opcode_mem {s : State} {i : Instr} {w : Writes} {v : Word} (h : Updates s i w v) :
    i.opcode ∈ [Opcode.load, .add, .sub, .mul, .div, .eq, .neq, .gt, .gte, .lt, .lte, .aloc] := by
  cases h with
  | arith _ g r1 r2 r3 h => cases h <;> simp [Instr.opcode]
  | compare _ rel r1 r2 p h => cases h <;> simp [Instr.opcode]
  | load | div | aloc => simp [Instr.opcode]

theorem Ends.eq_halted_iff {s : State} {i : Instr} {w : Writes} {v : Word} {o : StepOutcome} (h : Ends s i w v o) :
    o = .halted ↔ i.opcode = .hlt := by
  cases h with
  | fault f _ h => simp [h.opcode_ne_hlt]
  | move _ _ h => rcases h.report with ⟨hop, rfl⟩ | ⟨hop, rfl⟩ <;> simp [hop]
  | update _ _ h =>
    have hop : i.opcode ≠ .hlt := fun hhlt => by simpa [hhlt] using h.opcode_mem
    simp [hop]

theorem Ends.ne_exhausted {s : State} {i : Instr} {w : Writes} {v : Word} {o : StepOutcome} (h : Ends s i w v o) :
    o ≠ .exhausted := by
  cases h with
  | fault | update => simp
  | move _ _ h => rcases h.report with ⟨-, rfl⟩ | ⟨-, rfl⟩ <;> simp

theorem Ends.faults {s : State} {i : Instr} {w : Writes} {v : Word} {rec : FaultRecord} (h : Ends s i w v (.faulted rec)) :
    w = {} ∧ rec.site = ⟨s.pc, i.opcodeByte s.params.relJumpCodes⟩ ∧ Faults s i rec.fault v := by
  cases h with
  | fault f _ h => exact ⟨rfl, rfl, h⟩
  | move _ _ h => cases h

theorem Ends.invalidOpcode_iff {s : State} {i : Instr} {w : Writes} {v : Word} {o : StepOutcome} (h : Ends s i w v o) :
    (∃ site, o = .faulted ⟨site, .invalidOpcode⟩) ↔ i.opcode = .illegal := by
  constructor
  · rintro ⟨site, rfl⟩
    obtain ⟨-, -, hfault⟩ := h.faults
    exact hfault.eq_invalidOpcode_iff.mp rfl
  · intro hop
    cases h with
    | fault f _ h => exact ⟨_, by rw [h.eq_invalidOpcode_iff.mpr hop]⟩
    | move _ _ h => simpa [hop] using h.opcode_mem
    | update _ _ h => simpa [hop] using h.opcode_mem

/-- Settles O27. -/
theorem haltExactlyByHltAndInvalidOpcodeExactlyByIllegal : Obligations.HaltExactlyByHltAndInvalidOpcodeExactlyByIllegal := by
  intro i s t h
  obtain ⟨w, v, o, hends, rfl⟩ := ends_of_exec s t i h
  simp only [ne_eq, endsAt_report_eq_some_iff]
  exact ⟨hends.eq_halted_iff, hends.ne_exhausted, hends.invalidOpcode_iff⟩

theorem Updates.pc_eq {s : State} {i : Instr} {w : Writes} {v : Word} (h : Updates s i w v) (flag : Bool) :
    v = s.pc + BitVec.ofNat 32 (i.length s.params flag) := by
  cases h with
  | arith _ g r1 r2 r3 h => cases h <;> rfl
  | compare _ rel r1 r2 p h => cases h <;> rfl
  | load | div | aloc => rfl

theorem Moves.pc_eq {s : State} {i : Instr} {v : Word} {o : StepOutcome} (h : Moves s i v o)
    (hjump : i.opcode ∉ [Opcode.jmp, .jmpf, .jmpb]) (htaken : ¬(i.opcode = .jmpe ∧ s.equalFlag = true)) :
    v = s.pc + BitVec.ofNat 32 (i.length s.params s.equalFlag) := by
  cases h with
  | hlt | nop => rfl
  | jmp | jmpf | jmpbAdd | jmpbSubtract => simp [Instr.opcode] at hjump
  | jmpeTaken r hf => exact absurd ⟨rfl, hf⟩ htaken
  | jmpeNoConsume r hf hm => simp [Instr.length, hf, hm]
  | jmpeConsume r hf hm => simp [Instr.length, hf, hm]

/-- Settles O28. -/
theorem completedNonJumpAdvancesByItsLength : Obligations.CompletedNonJumpAdvancesByItsLength := by
  intro i s t h hcomplete hjump htaken
  obtain ⟨w, v, o, hends, rfl⟩ := ends_of_exec s t i h
  cases hends with
  | fault => exact absurd rfl (hcomplete _)
  | move _ _ hmove => exact hmove.pc_eq hjump htaken
  | update _ _ hupdate => exact hupdate.pc_eq s.equalFlag

end Sys2Proof.Proofs
end

section
/-! The step (spec/40_engine.md R52, R58, R63): the bytes it decodes, and what it answers in every state. -/

namespace Sys2Proof.Proofs

open Sys2Proof.Machine

/-! ### The bytes at `pc` -/

/-- Settles O1. -/
theorem stepRunsDecodedInstruction : Obligations.StepRunsDecodedInstruction := fun s i h => by
  simp only [step, h]

/-- Bytes that stand in the program from `p` on are what a fetch from `p` begins with. -/
theorem exists_fetch_eq_append (m : Memory) (bs : List Byte) (n : Nat) (p : Word) (hn : bs.length ≤ n)
    (h : ∀ k b, bs[k]? = some b → m.byteAt (p + BitVec.ofNat 32 k).toNat = some b) : ∃ rest, m.fetch n p = bs ++ rest := by
  induction bs generalizing n p with
  | nil => exact ⟨_, rfl⟩
  | cons b bs ih =>
    cases n with
    | zero => simp at hn
    | succ n =>
      have hb : m.byteAt p.toNat = some b := by simpa using h 0 b rfl
      obtain ⟨rest, hrest⟩ := ih n (p + 1) (by simpa using hn) fun k c hc => by
        rw [Memory.fetch_offset_succ]
        exact h (k + 1) c hc
      exact ⟨rest, by rw [Memory.fetch_succ_some m n p b hb, hrest, List.cons_append]⟩

theorem encode_length_le (codes : Config.RelJumpCodes) (i : Instr) : (encode codes i).length ≤ Config.maxLength := by
  have hone (o : Operand) : o.toList.length ≤ 1 := by cases o <;> simp
  have htwo (imm : ImmOperand) : imm.bytes.length ≤ 2 := by cases imm <;> simp [ImmOperand.bytes]
  rw [encode, List.length_cons]
  refine Nat.succ_le_succ ?_
  cases i with
  | load r imm => simpa [Instr.operandBytes] using Nat.add_le_add (hone r) (htwo imm)
  | add r1 r2 r3 | sub r1 r2 r3 | mul r1 r2 r3 | div r1 r2 r3 | eq r1 r2 r3 | neq r1 r2 r3 | gte r1 r2 r3 | lte r1 r2 r3
  | lt r1 r2 r3 | gt r1 r2 r3 | nop r1 r2 r3 =>
    simpa [Instr.operandBytes, Nat.add_assoc] using Nat.add_le_add (Nat.add_le_add (hone r1) (hone r2)) (hone r3)
  | jmp r | jmpb r | jmpf r | jmpe r | aloc r => exact (hone r).trans (by decide)
  | hlt | illegal => simp [Instr.operandBytes]

/-- Settles O2: the fetched bytes begin with the encoding, which decodes to the instruction whatever follows. -/
theorem stepRunsEncodedBytes : Obligations.StepRunsEncodedBytes := by
  intro s i hi hbytes
  obtain ⟨rest, hrest⟩ := exists_fetch_eq_append s.program _ Config.maxLength s.pc (encode_length_le _ i) hbytes
  refine stepRunsDecodedInstruction s i ?_
  rw [State.fetchWindow, hrest]
  exact decodeOfEncodeIsTheInstruction s.params.relJumpCodes i rest hi

/-! ### The program of a state that meets the invariant -/

theorem programByteAt_eq_none_iff_of_dense (s : State) (h : s.program.dense) (x : Nat) :
    s.programByteAt x = none ↔ s.progLen ≤ x := by
  rw [State.programByteAt, Memory.byteAt_of_dense _ x h, List.getElem?_eq_none_iff, List.length_map, State.progLen,
    Memory.extent_of_dense _ h]

theorem lt_progLen_of_programByteAt (s : State) (x : Nat) (b : Byte) (h : s.programByteAt x = some b) : x < s.progLen := by
  by_contra hge
  simp [programByteAt_eq_none_of_progLen_le s x (not_lt.mp hge)] at h

theorem progLen_le_of_inv (s : State) (h : s.Inv) : s.progLen ≤ 2 ^ 32 - 4 :=
  h.program_fits.trans h.params_valid.2.2

/-- `pc` does not wrap past a program byte: `PROG_CAPACITY` leaves no byte at the last offset (log entry 12). -/
theorem toNat_add_one_of_programByteAt (s : State) (hinv : s.Inv) (p : Word) (b : Byte) (h : s.programByteAt p.toNat = some b) :
    (p + 1).toNat = p.toNat + 1 := by
  have hlt := lt_progLen_of_programByteAt s _ b h
  have hle := progLen_le_of_inv s hinv
  bv_omega

theorem fetch_eq_take_drop (s : State) (hinv : s.Inv) (n : Nat) (p : Word) :
    s.program.fetch n p = ((s.program.map Prod.snd).drop p.toNat).take n := by
  have hdense := hinv.program_dense
  induction n generalizing p with
  | zero => simp
  | succ n ih =>
    have hread := Memory.byteAt_of_dense s.program p.toNat hdense
    cases hb : s.program.byteAt p.toNat with
    | none =>
      rw [hb, eq_comm, List.getElem?_eq_none_iff] at hread
      rw [Memory.fetch_succ_none _ _ _ hb, List.drop_eq_nil_of_le hread, List.take_nil]
    | some b =>
      rw [hb, eq_comm, List.getElem?_eq_some_iff] at hread
      obtain ⟨hlt, hget⟩ := hread
      rw [Memory.fetch_succ_some _ _ _ b hb, ih (p + 1), toNat_add_one_of_programByteAt s hinv p b hb,
        List.drop_eq_getElem_cons hlt, hget, List.take_succ_cons]

/-- Settles O9. -/
theorem fetchWindowIsTheProgramAtPc : Obligations.FetchWindowIsTheProgramAtPc := fun s hinv =>
  fetch_eq_take_drop s hinv 4 s.pc

/-! ### Everything a step can do -/

/-- A step finds no byte at `pc` and reports `Exhausted`, or ends as the instruction that begins there. -/
theorem step_ends (s : State) :
    (s.programByteAt s.pc.toNat = none ∧ step s = .next (s.setReport .exhausted)) ∨
    ∃ b0 i w v o, s.programByteAt s.pc.toNat = some b0 ∧ s.fetchWindow = b0 :: s.program.fetch 3 (s.pc + 1) ∧
      decode s.params.relJumpCodes (b0 :: s.program.fetch 3 (s.pc + 1)) = .ok i ∧ Ends s i w v o ∧
      step s = .next ((w.apply s).endsAt v o) := by
  rcases step_cases s with ⟨hb, -, hstep⟩ | ⟨b0, bs, i, hb, rfl, hw, hi, hstep⟩
  · exact .inl ⟨hb, hstep⟩
  · obtain ⟨w, v, o, hends⟩ := exists_ends s i
    exact .inr ⟨b0, i, w, v, o, hb, hw, hi, hends, hstep.trans (exec_of_ends s i w v o hends)⟩

/-- What a step changes besides the report: nothing, or what the end of some instruction does. -/
theorem ends_of_step (s t : State) (h : step s = .next t) :
    t = s.setReport .exhausted ∨ ∃ i w v o, Ends s i w v o ∧ t = (w.apply s).endsAt v o := by
  rcases step_ends s with ⟨-, hstep⟩ | ⟨-, i, w, v, o, -, -, -, hends, hstep⟩
  · exact .inl (Host.Outcome.next.inj (h.symm.trans hstep))
  · exact .inr ⟨i, w, v, o, hends, Host.Outcome.next.inj (h.symm.trans hstep)⟩

/-- Settles O15. -/
theorem everyStepReportsOneOutcome : Obligations.EveryStepReportsOneOutcome := by
  intro s
  rcases step_ends s with ⟨-, hstep⟩ | ⟨-, i, w, v, o, -, -, -, -, hstep⟩
  · exact ⟨_, _, hstep, rfl⟩
  · exact ⟨_, o, hstep, rfl⟩

/-- The report is none of the fields an end depends on, and every end replaces it. -/
theorem exec_report (i : Instr) (s : State) (o : Option StepOutcome) : exec i { s with report := o } = exec i s := by
  obtain ⟨w, v, o', hends⟩ := exists_ends s i
  have hagrees : AgreesFor i s { s with report := o } := ⟨rfl, rfl, rfl, fun _ => rfl, fun _ => rfl⟩
  rw [exec_of_ends s i w v o' hends, exec_of_ends _ i w v o' (hends.congr hagrees)]
  rfl

/-- Settles O16. -/
theorem stepDoesNotReadTheReport : Obligations.StepDoesNotReadTheReport := by
  intro s o
  rcases step_cases s with ⟨-, hw, hstep⟩ | ⟨b0, bs, i, -, -, hw, hi, hstep⟩
  · have hw' : ({ s with report := o } : State).fetchWindow = [] := hw
    rw [hstep, step, hw']
    rfl
  · rw [hstep, stepRunsDecodedInstruction { s with report := o } i (hw ▸ hi), exec_report]

/-- Settles O17. -/
theorem exhaustedExactlyAtTheEnd : Obligations.ExhaustedExactlyAtTheEnd := by
  refine ⟨fun s hend => ?_, fun s hinv hlt => ?_⟩
  · rcases step_ends s with ⟨-, hstep⟩ | ⟨b0, i, w, v, o, hb, -⟩
    · exact hstep
    · exact absurd (lt_progLen_of_programByteAt s _ b0 hb) (not_lt.mpr hend)
  · rcases step_ends s with ⟨hb, -⟩ | ⟨-, i, w, v, o, -, -, -, hends, hstep⟩
    · exact absurd ((programByteAt_eq_none_iff_of_dense s hinv.program_dense _).mp hb) (not_le.mpr hlt)
    · exact ⟨_, hstep, fun hexhausted => hends.ne_exhausted ((endsAt_report_eq_some_iff _ _ _ _).mp hexhausted)⟩

/-- Settles O20: no end writes the program or the parameters. -/
theorem noStepWritesProgramOrParameters : Obligations.NoStepWritesProgramOrParameters := by
  intro s t h
  obtain rfl | ⟨i, w, v, o, -, rfl⟩ := ends_of_step s t h
  · exact ⟨fun _ => rfl, rfl, rfl⟩
  · exact ⟨fun _ => rfl, rfl, rfl⟩

/-- Settles O18: the end of a fault writes nothing. -/
theorem faultingStepChangesOnlyPc : Obligations.FaultingStepChangesOnlyPc := by
  intro s t rec h hreport
  refine ⟨?_, (noStepWritesProgramOrParameters s t h).1⟩
  obtain rfl | ⟨i, w, v, o, hends, rfl⟩ := ends_of_step s t h
  · cases hreport
  · obtain rfl := (endsAt_report_eq_some_iff _ _ _ _).mp hreport
    obtain ⟨rfl, -, -⟩ := hends.faults
    rfl

/-! ### The invariant -/

/-- Settles O11. -/
theorem resetMeetsInvariant : Obligations.ResetMeetsInvariant := by
  have hreset (p : Config.Params) (hp : p.valid) : (State.resetWith p).Inv := ⟨hp, rfl, Nat.zero_le _, Nat.zero_le _⟩
  exact ⟨hreset Config.defaultParams (by decide), hreset⟩

/-- The invariant speaks of three fields: the first two stay, and the third grows within its capacity. -/
theorem inv_of_ends {s : State} {i : Instr} {w : Writes} {v : Word} {o : StepOutcome} (hinv : s.Inv) (h : Ends s i w v o) :
    ((w.apply s).endsAt v o).Inv := by
  refine ⟨hinv.params_valid, hinv.program_dense, hinv.program_fits, ?_⟩
  change w.heapLen.getD s.heapLen ≤ s.params.heapCapacity
  cases hw : w.heapLen with
  | none => exact hinv.heap_fits
  | some n =>
    obtain ⟨r, g, -, -, -, hfits⟩ := h.heapLen_eq_some n hw
    exact hfits

/-- Settles O12. -/
theorem stepKeepsInvariant : Obligations.StepKeepsInvariant := by
  intro s t hinv h
  obtain rfl | ⟨i, w, v, o, hends, rfl⟩ := ends_of_step s t h
  · exact ⟨hinv.params_valid, hinv.program_dense, hinv.program_fits, hinv.heap_fits⟩
  · exact inv_of_ends hinv hends

theorem runOne_inv (s : State) (hinv : s.Inv) : (runOne s).Inv := by
  obtain ⟨t, -, hstep, -⟩ := everyStepReportsOneOutcome s
  rw [runOne_of_step s t hstep]
  exact stepKeepsInvariant s t hinv hstep

theorem appendProgram_inv (s : State) (bs : List Byte) (hinv : s.Inv) : (appendProgram bs s).2.Inv := by
  rcases appendProgram_cases bs s with ⟨-, hres⟩ | ⟨hfits, hres⟩
  · rw [hres]
    exact hinv
  · rw [hres]
    exact ⟨hinv.params_valid, Memory.appendBytes_dense _ bs hinv.program_dense,
      (Memory.extent_appendBytes s.program bs).trans_le hfits, hinv.heap_fits⟩

theorem appendAndStep_inv (s : State) (bs : List Byte) (hinv : s.Inv) : (appendAndStep bs s).2.Inv := by
  have happend := appendProgram_inv s bs hinv
  rcases appendProgram_cases bs s with ⟨-, hres⟩ | ⟨-, hres⟩
  · rw [appendAndStep, hres]
    exact hinv
  · rw [hres] at happend
    rw [appendAndStep, hres]
    exact runOne_inv _ happend

/-- Settles O13. -/
theorem hostOperationsKeepInvariant : Obligations.HostOperationsKeepInvariant := fun s bs hinv =>
  ⟨appendProgram_inv s bs hinv, runOne_inv s hinv, appendAndStep_inv s bs hinv,
    resetMeetsInvariant.2 s.params hinv.params_valid⟩

/-! ### Runs -/

/-- Steps that give `Continue` from the second state of a run on, and from the first. -/
theorem continued_of_runOne_continued (s : State) (k : Nat) (hfirst : (runOne s).report = some .continued)
    (hrest : ∀ j, 1 ≤ j → j ≤ k → (runOne^[j] (runOne s)).report = some .continued) (j : Nat) (h1 : 1 ≤ j) (hk : j ≤ k + 1) :
    (runOne^[j] s).report = some .continued := by
  obtain ⟨j, rfl⟩ := Nat.exists_eq_add_of_le' h1
  rw [Function.iterate_succ_apply]
  rcases Nat.eq_zero_or_pos j with rfl | hpos
  · exact hfirst
  · exact hrest j hpos (by omega)

/-- Settles O31, by induction on the number of steps watched. -/
theorem runStopsAtTheFirstOtherOutcome : Obligations.RunStopsAtTheFirstOtherOutcome := by
  intro n
  induction n with
  | zero =>
    refine fun s => ⟨fun t h => ?_, fun t h => ?_⟩
    · cases h
    · cases h
      exact ⟨rfl, fun j h1 h0 => by omega⟩
  | succ n ih =>
    intro s
    rw [runFor_succ]
    split
    next hfirst =>
      obtain ⟨hended, hrunning⟩ := ih (runOne s)
      refine ⟨fun t h => ?_, fun t h => ?_⟩
      · obtain ⟨k, hk, hcont, ht, hstop⟩ := hended t h
        exact ⟨k + 1, by omega, continued_of_runOne_continued s k hfirst hcont, ht, hstop⟩
      · obtain ⟨ht, hcont⟩ := hrunning t h
        exact ⟨ht, continued_of_runOne_continued s n hfirst hcont⟩
    next hfirst =>
      refine ⟨fun t h => ?_, fun t h => ?_⟩
      · cases h
        exact ⟨0, by omega, fun j h1 h0 => by omega, rfl, hfirst⟩
      · cases h

/-- Of the four outcomes, a step that neither goes on nor faults has one of the two normal endings. -/
theorem report_runOne_of_stopped (s : State) (hstop : (runOne s).report ≠ some .continued) (hsafe : (runOne s).faulted = false) :
    (runOne s).report = some .halted ∨ (runOne s).report = some .exhausted := by
  obtain ⟨t, o, hstep, hreport⟩ := everyStepReportsOneOutcome s
  rw [runOne_of_step s t hstep] at hstop hsafe ⊢
  cases o with
  | continued => exact absurd hreport hstop
  | halted => exact .inl hreport
  | exhausted => exact .inr hreport
  | faulted rec => simp [State.faulted, hreport] at hsafe

/-- Settles O54, by induction on the number of steps watched. -/
theorem safeRunEndsNormally : Obligations.SafeRunEndsNormally := by
  intro n
  induction n with
  | zero =>
    intro s t _ h
    cases h
  | succ n ih =>
    intro s t hsafe h
    obtain ⟨hfirst, hrest⟩ := hsafe
    rw [runFor_succ] at h
    split at h
    next hcont => exact ih (runOne s) t (hrest hcont) h
    next hstop =>
      cases h
      exact report_runOne_of_stopped s hstop hfirst

/-! ### JMPE's operand byte as the next opcode (spec/70_reset_and_hazards.md R112) -/

/-- Where a byte stands at `pc`, the step runs an instruction of the opcode that byte selects. -/
theorem exists_step_eq_exec (s : State) (b0 : Byte) (h : s.programByteAt s.pc.toNat = some b0) :
    ∃ i : Instr, i.opcode = fromByte s.params.relJumpCodes b0 ∧ step s = exec i s := by
  rcases step_cases s with ⟨hb, -⟩ | ⟨b, bs, i, hb, -, -, hi, hstep⟩
  · exact absurd (hb.symm.trans h) (by simp)
  · obtain rfl : b = b0 := Option.some.inj (hb.symm.trans h)
    exact ⟨i, decode_cons_opcode _ b bs i hi, hstep⟩

/-- Settles O30. -/
theorem jmpeFalsePathDecodesItsOperandByte : Obligations.JmpeFalsePathDecodesItsOperandByte := by
  intro s b1 h0 h1 hflag hmode
  refine ⟨?_, exists_step_eq_exec (s.endsAt (s.pc + 1) .continued) b1 h1⟩
  obtain ⟨i, hop, hstep⟩ := exists_step_eq_exec s 0x0F h0
  cases i with
  | jmpe r => exact hstep.trans (execJmpe_of_referenceNoConsume r s hflag hmode)
  | _ => cases hop

end Sys2Proof.Proofs
end

section
/-! Fault records against the program bytes (spec/60_exceptions.md R90, R98): each operand the fault looked at is a byte of the
fetched window, and a truncation's offset is where the window ends. -/

namespace Sys2Proof.Proofs

open Config (RelJumpCodes)
open Sys2Proof.Machine

/-! ### Operands as bytes of the stream -/

/-- The operands of one byte, in stream order, padding and skipped bytes included (spec/30_encoding.md R39). -/
def byteOperands : Instr → List Operand
  | .load r _ | .jmp r | .jmpb r | .jmpf r | .jmpe r | .aloc r => [r]
  | .add r1 r2 r3 | .sub r1 r2 r3 | .mul r1 r2 r3 | .div r1 r2 r3 => [r1, r2, r3]
  | .eq r1 r2 p | .neq r1 r2 p | .gte r1 r2 p | .lte r1 r2 p | .lt r1 r2 p | .gt r1 r2 p => [r1, r2, p]
  | .nop s1 s2 s3 => [s1, s2, s3]
  | .hlt | .illegal _ => []

theorem getElem?_eq_some_of_isPrefix {α : Type} {l l' : List α} (h : l <+: l') (k : Nat) (x : α) (hk : l[k]? = some x) :
    l'[k]? = some x := by
  obtain ⟨rest, rfl⟩ := h
  obtain ⟨hlt, -⟩ := List.getElem?_eq_some_iff.mp hk
  rwa [List.getElem?_append_left hlt]

theorem regOperands_isPrefix (i : Instr) : regOperands i <+: byteOperands i := by
  cases i with
  | eq r1 r2 p | neq r1 r2 p | gte r1 r2 p | lte r1 r2 p | lt r1 r2 p | gt r1 r2 p => exact ⟨[p], rfl⟩
  | nop => exact List.nil_prefix
  | _ => exact List.prefix_refl _

theorem byteOperands_isPrefix_of_decode_cons (codes : RelJumpCodes) (b0 : Byte) (bs : List Byte) (i : Instr)
    (h : decode codes (b0 :: bs) = .ok i) : byteOperands i <+: [bs[0]?, bs[1]?, bs[2]?] := by
  simp only [decode, Except.ok.injEq] at h
  subst h
  split <;> simp [byteOperands]

theorem byteOperand_of_decode_cons (codes : RelJumpCodes) (b0 : Byte) (bs : List Byte) (i : Instr)
    (h : decode codes (b0 :: bs) = .ok i) (k : Nat) (o : Operand) (ho : (byteOperands i)[k]? = some o) : k < 3 ∧ o = bs[k]? := by
  have hk := getElem?_eq_some_of_isPrefix (byteOperands_isPrefix_of_decode_cons codes b0 bs i h) k o ho
  match k, hk with
  | 0, hk | 1, hk | 2, hk => exact ⟨by omega, (Option.some.inj hk).symm⟩

theorem regOperand_of_decode_cons (codes : RelJumpCodes) (b0 : Byte) (bs : List Byte) (i : Instr)
    (h : decode codes (b0 :: bs) = .ok i) (k : Nat) (o : Operand) (ho : (regOperands i)[k]? = some o) : k < 3 ∧ o = bs[k]? :=
  byteOperand_of_decode_cons codes b0 bs i h k o (getElem?_eq_some_of_isPrefix (regOperands_isPrefix i) k o ho)

theorem immediate_of_decode_cons (codes : RelJumpCodes) (b0 : Byte) (bs : List Byte) (r : Operand) (imm : ImmOperand)
    (h : decode codes (b0 :: bs) = .ok (.load r imm)) : imm = immAt bs 1 := by
  simp only [decode, Except.ok.injEq] at h
  split at h <;> cases h
  rfl

theorem length_le_of_immAt_eq_none (bs : List Byte) (k : Nat) (h : immAt bs k = none) : bs.length ≤ k + 1 := by
  by_contra hlt
  have hhi := List.getElem?_eq_getElem (l := bs) (i := k) (by omega)
  have hlo := List.getElem?_eq_getElem (l := bs) (i := k + 1) (by omega)
  simp [immAt, hhi, hlo] at h

theorem Comparison.byteOperands_eq {i : Instr} {rel : Word → Word → Bool} {r1 r2 p : Operand} (h : Comparison i rel r1 r2 p) :
    byteOperands i = [r1, r2, p] := by
  cases h <;> rfl

theorem le_of_fromByte_eq_illegal (codes : RelJumpCodes) (b : Byte) (h : fromByte codes b = .illegal) : 18 ≤ b.toNat := by
  by_contra hlt
  have hround := toByte_fromByte_of_lt codes b (not_le.mp hlt)
  rw [h] at hround
  obtain rfl : 100 = b := hround
  exact hlt (by decide)

/-! ### The fetched window in the program -/

theorem programByteAt_of_fetchWindow (s : State) (k : Nat) (b : Byte) (h : s.fetchWindow[k]? = some b) :
    s.programByteAt (s.pc + BitVec.ofNat 32 k).toNat = some b :=
  Memory.byteAt_of_fetch_some s.program Config.maxLength k s.pc b h

/-- A window shorter than an instruction can be ends where a byte is missing. -/
theorem programByteAt_fetchWindow_length (s : State) (h : s.fetchWindow.length < 4) :
    s.programByteAt (s.pc + BitVec.ofNat 32 s.fetchWindow.length).toNat = none :=
  Memory.byteAt_of_fetch_none s.program Config.maxLength _ s.pc h (List.getElem?_eq_none le_rfl)
    fun j hj => by simpa [State.fetchWindow] using hj

/-- Under the invariant that missing byte is the one at `prog_len`, since the byte before it is there. -/
theorem toNat_fetchWindow_end (s : State) (hinv : s.Inv) (n : Nat) (hn : s.fetchWindow.length = n + 1) (h : n + 1 < 4) :
    (s.pc + BitVec.ofNat 32 (n + 1)).toNat = s.progLen := by
  have hlast := programByteAt_of_fetchWindow s n _ (List.getElem?_eq_getElem (by omega))
  have hend := programByteAt_fetchWindow_length s (by omega)
  have hnext : s.pc + BitVec.ofNat 32 (n + 1) = s.pc + BitVec.ofNat 32 n + 1 := by rw [BitVec.ofNat_add, ← BitVec.add_assoc]; rfl
  have hlt := lt_progLen_of_programByteAt s _ _ hlast
  rw [hn, programByteAt_eq_none_iff_of_dense s hinv.program_dense] at hend
  rw [hnext, toNat_add_one_of_programByteAt s hinv _ _ hlast] at hend ⊢
  omega

/-- Where a truncation is found: at the end of the window, or, with the high byte of LOAD's immediate alone, at that byte
(spec/40_engine.md R55). -/
def TruncatedAt (s : State) (b0 : Byte) (off : Word) : Prop :=
  ∃ n < 3, s.fetchWindow.length = n + 1 ∧
    (off = s.pc + BitVec.ofNat 32 (n + 1) ∨ b0 = 0x00 ∧ n = 2 ∧ off = s.pc + BitVec.ofNat 32 2)

theorem operandOffset_mem (a : Word) (n : Nat) (h : n < 3) : a + BitVec.ofNat 32 (n + 1) ∈ [a + 1, a + 2, a + 3] := by
  match n, h with
  | 0, _ | 1, _ | 2, _ => simp

theorem TruncatedAt.mem {s : State} {b0 : Byte} {off : Word} (h : TruncatedAt s b0 off) :
    off ∈ [s.pc + 1, s.pc + 2, s.pc + 3] := by
  obtain ⟨n, hn, -, rfl | ⟨-, -, rfl⟩⟩ := h
  · exact operandOffset_mem s.pc n hn
  · exact operandOffset_mem s.pc 1 (by omega)

theorem TruncatedAt.programByteAt {s : State} {b0 : Byte} {off : Word} (h : TruncatedAt s b0 off) :
    s.programByteAt off.toNat = none ∨ b0 = 0x00 ∧ off = s.pc + 2 ∧ s.programByteAt (off + 1).toNat = none := by
  obtain ⟨n, hn, hlen, hoff⟩ := h
  have hend := programByteAt_fetchWindow_length s (by omega)
  rw [hlen] at hend
  obtain rfl | ⟨hb0, rfl, rfl⟩ := hoff
  · exact .inl hend
  · refine .inr ⟨hb0, rfl, ?_⟩
    rwa [BitVec.add_assoc]

theorem TruncatedAt.toNat {s : State} {b0 : Byte} {off : Word} (h : TruncatedAt s b0 off) (hinv : s.Inv) :
    off.toNat = s.progLen ∨ b0 = 0x00 ∧ off = s.pc + 2 ∧ off.toNat + 1 = s.progLen := by
  obtain ⟨n, hn, hlen, hoff⟩ := h
  have hend := toNat_fetchWindow_end s hinv n hlen (by omega)
  obtain rfl | ⟨hb0, rfl, rfl⟩ := hoff
  · exact .inl hend
  · refine .inr ⟨hb0, rfl, ?_⟩
    have hlast := programByteAt_of_fetchWindow s 2 _ (List.getElem?_eq_getElem (by omega))
    rw [← toNat_add_one_of_programByteAt s hinv _ _ hlast, ← hend, BitVec.add_assoc]
    rfl

/-! ### The faults of the instruction in the window -/

section

variable {s : State} {b0 : Byte} {bs : List Byte} {i : Instr}

theorem programByteAt_of_byteOperand (hw : s.fetchWindow = b0 :: bs) (hi : decode s.params.relJumpCodes (b0 :: bs) = .ok i)
    (k : Nat) (b : Byte) (hk : (byteOperands i)[k]? = some (some b)) :
    s.programByteAt (s.pc + BitVec.ofNat 32 (k + 1)).toNat = some b := by
  refine programByteAt_of_fetchWindow s (k + 1) b ?_
  rw [hw, List.getElem?_cons_succ]
  exact (byteOperand_of_decode_cons _ b0 bs i hi k (some b) hk).2.symm

/-- A one-byte operand that is missing, with those before it there, is where the window ends. -/
theorem truncatedAt_of_byteOperand (hw : s.fetchWindow = b0 :: bs) (hi : decode s.params.relJumpCodes (b0 :: bs) = .ok i)
    (k : Nat) (hbefore : ∀ n < k, ∃ b, (byteOperands i)[n]? = some (some b)) (hk : (byteOperands i)[k]? = some none) :
    TruncatedAt s b0 (s.pc + BitVec.ofNat 32 (k + 1)) := by
  obtain ⟨hk3, hnone⟩ := byteOperand_of_decode_cons _ b0 bs i hi k none hk
  have hle : bs.length ≤ k := List.getElem?_eq_none_iff.mp hnone.symm
  have hge : k ≤ bs.length := by
    by_contra hlt
    obtain ⟨b, hb⟩ := hbefore bs.length (not_le.mp hlt)
    simpa using (byteOperand_of_decode_cons _ b0 bs i hi _ _ hb).2
  exact ⟨k, hk3, by rw [hw, List.length_cons, le_antisymm hle hge], .inl rfl⟩

/-- The two faults of a register operand, with the byte each is about. -/
theorem operandFault_row (hw : s.fetchWindow = b0 :: bs) (hi : decode s.params.relJumpCodes (b0 :: bs) = .ok i)
    (f : Fault) (v : Word) (h : operandFault s.pc 1 (regOperands i) = some (f, v)) :
    (f = .truncatedInstruction v ∧ TruncatedAt s b0 v) ∨
    ∃ b off, f = .registerIndexOutOfRange b off ∧ v = off + 1 ∧ off ∈ [s.pc + 1, s.pc + 2, s.pc + 3] ∧
      s.programByteAt off.toNat = some b ∧ 32 ≤ b.toNat := by
  have hreg (n : Nat) (o : Operand) := getElem?_eq_some_of_isPrefix (regOperands_isPrefix i) n o
  obtain ⟨k, hbefore, ⟨hk, rfl, rfl⟩ | ⟨b, hk, hb, rfl, rfl⟩⟩ := operandFault_eq_some s.pc 1 _ f v h
  · rw [Nat.add_comm 1 k]
    refine .inl ⟨rfl, truncatedAt_of_byteOperand hw hi k (fun n hn => ?_) (hreg k none hk)⟩
    obtain ⟨b, hb⟩ := hbefore n hn
    exact ⟨b, hreg n (some b) hb⟩
  · rw [Nat.add_comm 1 k]
    have hk3 := (regOperand_of_decode_cons _ b0 bs i hi k (some b) hk).1
    exact .inr ⟨b, _, rfl, rfl, operandOffset_mem s.pc k hk3, programByteAt_of_byteOperand hw hi k b (hreg k _ hk), hb⟩

/-- An immediate short of a byte: neither is there, and the window ends at it, or the high byte stands alone. -/
theorem truncatedAt_of_immediate {r : Reg} (hw : s.fetchWindow = b0 :: bs)
    (hi : decode s.params.relJumpCodes (b0 :: bs) = .ok (.load (some (regByte r)) none)) : TruncatedAt s b0 (s.pc + 2) := by
  have hb0 : b0 = 0x00 := (opcodeByte_of_decode_cons _ b0 bs _ hi).symm
  have hle := length_le_of_immAt_eq_none bs 1 (immediate_of_decode_cons _ b0 bs _ _ hi).symm
  have hreg := (byteOperand_of_decode_cons _ b0 bs _ hi 0 (some (regByte r)) rfl).2
  obtain ⟨hpos, -⟩ := List.getElem?_eq_some_iff.mp hreg.symm
  refine ⟨bs.length, by omega, by rw [hw, List.length_cons], ?_⟩
  obtain hlen | hlen : bs.length = 1 ∨ bs.length = 2 := by omega
  · exact .inl (by rw [hlen]; rfl)
  · exact .inr ⟨hb0, hlen, rfl⟩

end

/-- Settles O19: the rows of the table, one for each `raise`. -/
theorem faultRecordAndPcAreTheTables : Obligations.FaultRecordAndPcAreTheTables := by
  intro s t rec h hreport
  rcases step_ends s with ⟨-, hstep⟩ | ⟨b0, i, w, v, o, hb, hw, hi, hends, hstep⟩
  · cases h.symm.trans hstep
    cases hreport
  obtain rfl := Host.Outcome.next.inj (h.symm.trans hstep)
  obtain rfl := (endsAt_report_eq_some_iff _ _ _ _).mp hreport
  obtain ⟨rfl, hsite, hfault⟩ := hends.faults
  obtain ⟨site, f⟩ := rec
  rw [opcodeByte_of_decode_cons _ b0 _ i hi] at hsite
  obtain rfl : site = ⟨s.pc, b0⟩ := hsite
  have hopcode := opcodeByte_of_decode_cons _ b0 _ i hi
  have truncated (hat : TruncatedAt s b0 v) : _ ∧ _ ∧ _ := ⟨hat.mem, hat.programByteAt, hat.toNat⟩
  refine ⟨rfl, hb, ?_⟩
  cases hfault with
  | operand _ _ _ _ hoperand =>
    obtain ⟨rfl, hat⟩ | ⟨b, off, rfl, rfl, hmem, hbyte, h32⟩ := operandFault_row hw hi f v hoperand
    · exact ⟨rfl, rfl, truncated hat⟩
    · exact ⟨rfl, rfl, hmem, hbyte, h32⟩
  | immediate r => exact ⟨rfl, rfl, truncated (truncatedAt_of_immediate hw hi)⟩
  | padding _ rel r1 r2 hcmp =>
    refine ⟨rfl, rfl, truncated (truncatedAt_of_byteOperand hw hi 2 (fun n hn => ?_) ?_)⟩
    · rw [hcmp.byteOperands_eq]
      match n, hn with
      | 0, _ | 1, _ => exact ⟨_, rfl⟩
    · rw [hcmp.byteOperands_eq]
      rfl
  | divideByZero r1 r2 r3 hzero =>
    exact ⟨rfl, rfl, hopcode.symm, programByteAt_of_byteOperand hw hi 1 _ rfl, hzero⟩
  | negativeAllocation r hneg =>
    exact ⟨rfl, rfl, hopcode.symm, ⟨r, programByteAt_of_byteOperand hw hi 0 _ rfl, rfl⟩, hneg⟩
  | heapExhausted r hnonneg hover =>
    exact ⟨rfl, rfl, hopcode.symm, ⟨r, programByteAt_of_byteOperand hw hi 0 _ rfl, rfl⟩, hnonneg, hover⟩
  | invalidOpcode b =>
    exact ⟨rfl, rfl, le_of_fromByte_eq_illegal _ b0 (decode_cons_opcode _ b0 _ _ hi).symm⟩

/-! ### An opcode byte alone at the end of the program -/

theorem regOperands_ne_nil (i : Instr) (h : i.opcode ∉ [Opcode.hlt, .nop, .illegal]) : regOperands i ≠ [] := by
  cases i with
  | hlt | nop | illegal => simp [Instr.opcode] at h
  | _ => simp [regOperands]

theorem operandFault_of_decode_singleton (codes : RelJumpCodes) (a : Word) (b0 : Byte) (i : Instr)
    (h : decode codes [b0] = .ok i) (hop : i.opcode ∉ [Opcode.hlt, .nop, .illegal]) :
    operandFault a 1 (regOperands i) = some (.truncatedInstruction (a + 1), a + 1) := by
  cases hregs : regOperands i with
  | nil => exact absurd hregs (regOperands_ne_nil i hop)
  | cons o os =>
    obtain ⟨-, rfl⟩ := regOperand_of_decode_cons codes b0 [] i h 0 o (by rw [hregs]; rfl)
    rfl

/-- Settles O53: the window is the opcode byte alone, so the first operand is the one missing. -/
theorem missingFirstOperandIsTruncation : Obligations.MissingFirstOperandIsTruncation := by
  intro s b0 hinv hb hlast hop hconsumes
  have hend : s.program.byteAt (s.pc + 1).toNat = none := by
    refine programByteAt_eq_none_of_progLen_le s _ ?_
    rw [toNat_add_one_of_programByteAt s hinv s.pc b0 hb, hlast]
  rcases step_cases s with ⟨hnone, -⟩ | ⟨b, bs, i, hb', rfl, -, hi, hstep⟩
  · exact absurd (hnone.symm.trans hb) (by simp)
  obtain rfl : b = b0 := Option.some.inj (hb'.symm.trans hb)
  rw [Memory.fetch_succ_none _ 2 _ hend] at hi
  have hopcode := decode_cons_opcode _ b [] i hi
  rw [← hopcode] at hop hconsumes
  rw [hstep, exec_of_operandFault s i _ _ hconsumes (operandFault_of_decode_singleton _ s.pc b i hi hop),
    opcodeByte_of_decode_cons _ b [] i hi]

end Sys2Proof.Proofs
end

section
/-! DIV's identity (spec/42_arith.md R73): the quotient and the remainder are exact before they wrap. -/

namespace Sys2Proof.Proofs

open Sys2Proof.Machine

theorem wrap32_s32 (v : Word) : wrap32 (s32 v) = v := BitVec.ofInt_toInt

/-- A value smaller in size than a signed word fits in 32 bits. -/
theorem s32_wrap32_of_natAbs_lt (m : Int) (d : Word) (h : m.natAbs < (s32 d).natAbs) : s32 (wrap32 m) = m := by
  have hlo : -2 ^ 31 ≤ s32 d := BitVec.le_toInt d
  have hhi : s32 d < 2 ^ 31 := BitVec.toInt_lt
  exact BitVec.toInt_ofInt_eq_self (by decide) (by omega) (by omega)

theorem wrap32_tdiv_mul_add_tmod (n d : Word) :
    wrap32 (Int.tdiv (s32 n) (s32 d)) * d + wrap32 (Int.tmod (s32 n) (s32 d)) = n :=
  calc wrap32 (Int.tdiv (s32 n) (s32 d)) * d + wrap32 (Int.tmod (s32 n) (s32 d))
      = wrap32 (Int.tdiv (s32 n) (s32 d)) * wrap32 (s32 d) + wrap32 (Int.tmod (s32 n) (s32 d)) := by rw [wrap32_s32 d]
    _ = wrap32 (Int.tdiv (s32 n) (s32 d) * s32 d + Int.tmod (s32 n) (s32 d)) := by
      rw [wrap32, wrap32, wrap32, wrap32, BitVec.ofInt_add, BitVec.ofInt_mul]
    _ = wrap32 (s32 n) := by rw [Int.tdiv_mul_add_tmod]
    _ = n := wrap32_s32 n

theorem tmod_nonpos_of_nonpos (n d : Int) (h : n ≤ 0) : Int.tmod n d ≤ 0 := by
  have hneg := Int.tmod_nonneg d (Int.neg_nonneg_of_nonpos h)
  rw [Int.neg_tmod] at hneg
  omega

theorem natAbs_tmod_lt (n d : Int) (hd : d ≠ 0) : (Int.tmod n d).natAbs < d.natAbs := by
  rw [Int.natAbs_tmod]
  exact Nat.mod_lt _ (Int.natAbs_pos.mpr hd)

/-- The remainder DIV computes is the truncated division's. -/
theorem execDiv_regByte_tmod (r1 r2 r3 : Reg) (s : State) (hd : s32 (s.readReg r2) ≠ 0) :
    execDiv (some (regByte r1)) (some (regByte r2)) (some (regByte r3)) s =
      .next (((s.writeReg r3 (wrap32 (Int.tdiv (s32 (s.readReg r1)) (s32 (s.readReg r2))))).setRemainder
        (wrap32 (Int.tmod (s32 (s.readReg r1)) (s32 (s.readReg r2))))).endsAt (s.pc + 4) .continued) := by
  rw [execDiv_regByte_of_ne_zero r1 r2 r3 s hd, Int.tmod_def, Int.mul_comm (s32 (s.readReg r2))]

/-- Settles O38: the identity of truncated division, taken modulo 2^32; the remainder fits, so its signed value is the exact
one. -/
theorem divIdentityHoldsModulo : Obligations.DivIdentityHoldsModulo := by
  intro s t r1 r2 r3 hd h
  obtain rfl := Host.Outcome.next.inj ((execDiv_regByte_tmod r1 r2 r3 s hd).symm.trans h)
  have hsize := natAbs_tmod_lt (s32 (s.readReg r1)) (s32 (s.readReg r2)) hd
  refine ⟨(congrArg (· * _ + _) (State.readReg_writeReg_self s r3 _)).trans (wrap32_tdiv_mul_add_tmod _ _), ?_⟩
  change (s32 (wrap32 _)).natAbs < _ ∧ (_ → 0 ≤ s32 (wrap32 _)) ∧ (_ → s32 (wrap32 _) ≤ 0)
  rw [s32_wrap32_of_natAbs_lt _ _ hsize]
  exact ⟨hsize, Int.tmod_nonneg _, tmod_nonpos_of_nonpos _ _⟩

end Sys2Proof.Proofs
end
